-- ==== Sys2Proof/Word.lean ====
section
/-! DEFINITION. The value types of the block: bytes, 16-bit and 32-bit register contents (00_scope.md R8). -/

namespace Sys2Proof

/-- `u8` of R8: a byte of a buffer, and the contents of STATUS. -/
abbrev Byte := BitVec 8

/-- `u16` of R8: the contents of the 16-bit registers and the entries of the table T. -/
abbrev Half := BitVec 16

/-- `u32` of R8: a command word, and the contents of HDR_ADDR. -/
abbrev Word := BitVec 32

end Sys2Proof
end

