-- ==== Sys2Proof/Config.lean ====
section
/-! DEFINITION. The parameters of 00_scope.md R7, at the values the spec fixes.
BUS_BINDING, which R7 leaves OPEN, is not a parameter here: no rule depends on it (log 5).
The spec leaves no value of the block open, so there is no free value. -/

namespace Sys2Proof.Config

/-- `BUF_LEN`: the number of bytes of IBUF and of OBUF (R7; log 4). -/
abbrev bufLen : Nat := 8192

/-- `MAX_FRAME_LEN`: the longest frame ENCODE builds and DECODE accepts (R7; log 4). -/
abbrev maxFrameLen : Nat := 8192

/-- `FRAME_CRC_SEED`: where the CRC of a frame starts (R7, 40_crc.md R88). -/
abbrev frameCrcSeed : Half := 0xFFFF#16

/-- `SYNC`: the sync byte (R7). -/
abbrev sync : Byte := 0xA5#8

/-- `SYNC16`: the sync pair as one value (R7). -/
abbrev sync16 : Half := 0xA5A5#16

/-- `ESC_MAX`: the largest escape count a header can hold (R7). -/
abbrev escMax : Nat := 7

/-- `HDR_LEN`: the bytes of a frame that are not payload (R7). -/
abbrev hdrLen : Nat := 12

/-- `POLY`: the reflected CRC polynomial (R7). -/
abbrev poly : Half := 0xA001#16

end Sys2Proof.Config
end

