-- ==== Sys2Proof/Syntax.lean ====
section
/-! DEFINITION. The eight commands of the block, one constructor per row of spec/opcode_table.json (30_encoding.md R69). -/

namespace Sys2Proof

/-- A command with its immediate operand (30_encoding.md R68, R69).
Every other operand stands in a register or in IBUF. -/
inductive Instr where
  /-- NOP, 41_escape_codec.md R100. -/
  | nop
  /-- CRC_INIT, 40_crc.md R84: `seed` is the whole IMM field. -/
  | crcInit (seed : Half)
  /-- CRC_BYTE, 40_crc.md R85: `b` is the low half of IMM. -/
  | crcByte (b : Byte)
  /-- CRC_BUF, 40_crc.md R86. -/
  | crcBuf
  /-- CRC_TAB, 40_crc.md R87: `idx` is the low half of IMM. -/
  | crcTab (idx : Byte)
  /-- ESC_COUNT, 41_escape_codec.md R102. -/
  | escCount
  /-- ENCODE, 41_escape_codec.md R103. -/
  | encode
  /-- DECODE, 41_escape_codec.md R110. -/
  | decode
deriving DecidableEq, Repr

end Sys2Proof
end

