-- ==== Sys2Proof/WellFormed.lean ====
section
/-! DEFINITION. What makes a command word legal (30_encoding.md R69 to R71), and which buffer indices exist
(20_memory.md R40). A term of `Instr` carries its immediate at the exact width of its field, so no term of it is
ill-formed; what can be ill-formed is the word a host writes to CMD and the index it names. -/

namespace Sys2Proof

/-- One row of the command table: a word is this row's command exactly when its bits under `mask` are `value`. -/
structure OpcodeRow where
  mnemonic : String
  mask : Word
  value : Word
deriving DecidableEq, Repr

/-- The table of spec/opcode_table.json, in its order (`match` there is `value` here). -/
def opcodeTable : List OpcodeRow :=
  [ ⟨"NOP",       0xFFFFFFFF#32, 0x00000000#32⟩,
    ⟨"CRC_INIT",  0x0000FFFF#32, 0x00000001#32⟩,
    ⟨"CRC_BYTE",  0xFF00FFFF#32, 0x00000002#32⟩,
    ⟨"CRC_BUF",   0xFFFFFFFF#32, 0x00000003#32⟩,
    ⟨"CRC_TAB",   0xFF00FFFF#32, 0x00000004#32⟩,
    ⟨"ESC_COUNT", 0xFFFFFFFF#32, 0x00000005#32⟩,
    ⟨"ENCODE",    0xFFFFFFFF#32, 0x00000006#32⟩,
    ⟨"DECODE",    0xFFFFFFFF#32, 0x00000007#32⟩ ]

/-- A word belongs to a row of the table. -/
def OpcodeRow.fits (r : OpcodeRow) (w : Word) : Bool := w &&& r.mask == r.value

/-- A command word is well formed when some row of the table fits it. -/
def wordWellFormed (w : Word) : Bool := opcodeTable.any (·.fits w)

/-- The row of the table an instruction belongs to, by mnemonic. -/
def Instr.mnemonic : Instr → String
  | .nop => "NOP"
  | .crcInit _ => "CRC_INIT"
  | .crcByte _ => "CRC_BYTE"
  | .crcBuf => "CRC_BUF"
  | .crcTab _ => "CRC_TAB"
  | .escCount => "ESC_COUNT"
  | .encode => "ENCODE"
  | .decode => "DECODE"

/-- Every term of `Instr` is well formed: the operand types are the widths of the fields (R68). -/
def Instr.wellFormed : Instr → Bool
  | .nop | .crcInit _ | .crcByte _ | .crcBuf | .crcTab _ | .escCount | .encode | .decode => true

/-- A buffer index that exists: `0 .. BUF_LEN - 1` (20_memory.md R40). -/
def indexExists (i : Nat) : Bool := decide (i < Config.bufLen)

end Sys2Proof
end

