-- ==== Sys2Proof/Decode.lean ====
section
/-! DEFINITION. The command decoder of 30_encoding.md R70, total on every 32-bit word and rejecting by name, and the
encoder written from the same layout (R67 to R69). -/

namespace Sys2Proof

/-- What the command decoder makes of a word: exactly one outcome for every word (R70, R71). -/
inductive Decoded where
  /-- The word is this command. -/
  | command (i : Instr)
  /-- OPC is 0x08 or more: ERR_ILLEGAL. -/
  | illegal
  /-- OPC is legal and a must-be-zero bit is 1: ERR_RESERVED. -/
  | reserved
deriving DecidableEq, Repr

/-- OPC, bits 7:0 (R67). -/
def opcField (w : Word) : Byte := w.extractLsb' 0 8

/-- IMM, bits 31:16 (R67): the seed of CRC_INIT. -/
def immField (w : Word) : Half := w.extractLsb' 16 16

/-- The low half of IMM, bits 23:16 (R68): the byte of CRC_BYTE and the index of CRC_TAB. -/
def immLowField (w : Word) : Byte := w.extractLsb' 16 8

/-- `mbz_mask(opc)` of R70. -/
def mbzMask (opc : Byte) : Word :=
  if opc = 0x01#8 then 0x0000FF00#32
  else if opc = 0x02#8 ∨ opc = 0x04#8 then 0xFF00FF00#32
  else 0xFFFFFF00#32

/-- The command of a legal OPC (the table of R69); nothing for any other code. -/
def commandOf (w : Word) : Option Instr :=
  match (opcField w).toNat with
  | 0 => some .nop
  | 1 => some (.crcInit (immField w))
  | 2 => some (.crcByte (immLowField w))
  | 3 => some .crcBuf
  | 4 => some (.crcTab (immLowField w))
  | 5 => some .escCount
  | 6 => some .encode
  | 7 => some .decode
  | _ => none

/-- R70, in its order: the illegal check comes before the reserved check. -/
def decode (w : Word) : Decoded :=
  match commandOf w with
  | none => .illegal
  | some i => if w &&& mbzMask (opcField w) ≠ 0#32 then .reserved else .command i

/-- A command word with nothing in RSV: IMM in bits 31:16 and OPC in bits 7:0 (R67). -/
def commandWord (imm : Half) (opc : Byte) : Word := imm ++ 0#8 ++ opc

/-- The word of an instruction (R68, R69; the assembler forms of R73). -/
def encode : Instr → Word
  | .nop => commandWord 0#16 0x00#8
  | .crcInit seed => commandWord seed 0x01#8
  | .crcByte b => commandWord (0#8 ++ b) 0x02#8
  | .crcBuf => commandWord 0#16 0x03#8
  | .crcTab idx => commandWord (0#8 ++ idx) 0x04#8
  | .escCount => commandWord 0#16 0x05#8
  | .encode => commandWord 0#16 0x06#8
  | .decode => commandWord 0#16 0x07#8

/-- The command word whose bits are the low `nbits` bits of `w`, numbered as spec/opcode_table.json numbers them;
a command is one word of 32 bits, written whole, so no byte order comes in (R42, R72). -/
def tableWord (nbits w : Nat) : Word := BitVec.ofNat 32 (w % 2 ^ nbits)

/-- The instruction the decoder reads from a word given as a number. -/
def decodeTableWord (nbits w : Nat) : Option Instr :=
  match decode (tableWord nbits w) with
  | .command i => some i
  | .illegal => none
  | .reserved => none

end Sys2Proof
end

