-- ==== Sys2Proof/Machine/State.lean ====
section
/-! DEFINITION. The state of the block (10_state.md R34), the host's transactions (20_memory.md R40 to R45), the
reasons a step can stop, and the state after reset (70_reset_and_hazards.md R170). -/

namespace Sys2Proof.Machine

/-- A buffer: (index, byte) pairs, indices strictly rising and below BUF_LEN.
A byte is listed exactly when its written mark is set (10_state.md R30; log 8), and an index that is not listed
has no value. -/
abbrev Memory := List Host.Cell

/-- The two buffers (10_state.md R28, R29). -/
inductive Buf where
  | ibuf
  | obuf
deriving DecidableEq, Repr

/-- The thirteen registers (10_state.md R11). -/
inductive Reg where
  | cmd
  | status
  | crc
  | ilen
  | start
  | hdrAddr
  | hdrOp
  | olen
  | fpos
  | next
  | flen
  | fcrc
  | result
deriving DecidableEq, Repr

/-- A register together with a value of exactly its width (20_memory.md R42, R43): what a register write carries and
what a register read returns. -/
inductive RegVal where
  | cmd (v : Word)
  | status (v : Byte)
  | crc (v : Half)
  | ilen (v : Half)
  | start (v : Half)
  | hdrAddr (v : Word)
  | hdrOp (v : Half)
  | olen (v : Half)
  | fpos (v : Half)
  | next (v : Half)
  | flen (v : Half)
  | fcrc (v : Half)
  | result (v : Half)
deriving DecidableEq, Repr

/-- What the outside world can do to the block (20_memory.md R40, R43; 70_reset_and_hazards.md R170). -/
inductive HostTx where
  /-- `WR reg, #v`; a write to CMD issues the command (10_state.md R12). -/
  | writeReg (v : RegVal)
  /-- `RD reg`. -/
  | readReg (r : Reg)
  /-- `WRB buf[i], #b`. -/
  | writeByte (buf : Buf) (i : Nat) (b : Byte)
  /-- `RDB buf[i]`. -/
  | readByte (buf : Buf) (i : Nat)
  /-- The reset event (log 3). -/
  | reset
deriving DecidableEq, Repr

/-- The value a host read returned. -/
inductive ReadData where
  | reg (v : RegVal)
  | byte (buf : Buf) (i : Nat) (b : Byte)
deriving DecidableEq, Repr

/-- The state of the block, and the host's side of its interface (the last two fields, the model's own). -/
structure State where
  /-- CMD, R12: the last command word written. -/
  cmd : Word
  /-- STATUS, R13: the outcome code of the last command. -/
  status : Byte
  /-- CRC, R14: the accumulator. -/
  crc : Half
  /-- ILEN, R15: end (exclusive) of the input range in IBUF. -/
  ilen : Half
  /-- START, R16: start of the input range in IBUF. -/
  start : Half
  /-- HDR_ADDR, R17: SENDER in 31:16, RECEIVER in 15:0. -/
  hdrAddr : Word
  /-- HDR_OP, R18: OPCODE in 15:8, header byte in 7:0. -/
  hdrOp : Half
  /-- OLEN, R19: number of valid bytes in OBUF. -/
  olen : Half
  /-- FPOS, R20: index of the candidate sync pair. -/
  fpos : Half
  /-- NEXT, R21: index from which to scan next. -/
  next : Half
  /-- FLEN, R22: total frame length. -/
  flen : Half
  /-- FCRC, R23: the CRC field of the frame. -/
  fcrc : Half
  /-- RESULT, R24: scalar result. -/
  result : Half
  /-- IBUF, R28, with its written marks (R30). -/
  ibuf : Memory
  /-- OBUF, R29, with its written marks (R30). -/
  obuf : Memory
  /-- The model's own: host transactions not yet done, oldest first (log 1). -/
  pending : List HostTx
  /-- The model's own: what the most recent host read returned (log 2). -/
  readData : Option ReadData
deriving DecidableEq, Repr

/-- The model faults (60_exceptions.md R143): the run stops and no state changes. -/
inductive Fault where
  /-- UNWRITTEN_READ: raised by CRC_BUF, ESC_COUNT, ENCODE and DECODE for an IBUF byte of their range, and by a host
  read of a buffer byte, whose written mark is clear (20_memory.md R44, R47).
  Safe: the hardware goes on with an unspecified value, the model stops. -/
  | unwrittenRead
  /-- INDEX_RANGE: raised by a host transaction that names a buffer index of BUF_LEN or more (20_memory.md R44 to
  R46). Safe: the hardware's behaviour belongs to BUS_BINDING, the model stops. -/
  | indexRange
deriving DecidableEq, Repr

/-- Reasons to have no meaning for a command. -/
inductive Refusal where
  /-- A command the model has no meaning for, by its mnemonic: `exec` has no such arm, so nothing raises it.
  Safe: the model would stop. -/
  | notModelled (mnemonic : String)
deriving DecidableEq, Repr

/-- The state after the reset event (10_state.md R11, 70_reset_and_hazards.md R170): CRC holds the fresh seed, every
other register 0, no buffer byte is written. No transaction is waiting and nothing has been read (log 1, log 2). -/
def State.reset : State where
  cmd := 0#32
  status := 0x00#8
  crc := 0xFFFF#16
  ilen := 0#16
  start := 0#16
  hdrAddr := 0#32
  hdrOp := 0#16
  olen := 0#16
  fpos := 0#16
  next := 0#16
  flen := 0#16
  fcrc := 0#16
  result := 0#16
  ibuf := []
  obuf := []
  pending := []
  readData := none

/-- What every meaning answers. -/
abbrev Result := Host.Outcome State Fault Refusal

end Sys2Proof.Machine
end

