-- ==== Sys2Proof/Machine/Flags.lean ====
section
/-! DEFINITION. The outcome codes a command writes to STATUS (60_exceptions.md R141).
The block has no condition-code flags (10_state.md R26): this one register is all its commands report. -/

namespace Sys2Proof.Machine

/-- The fourteen outcomes of R141, by name. -/
inductive StatusCode where
  | ok
  | errIllegal
  | errReserved
  | errArg
  | encSubopRange
  | encTooLong
  | encEscOverflow
  | decNoSync
  | decIncomplete
  | decLenShort
  | decLenOversize
  | decEscOverrun
  | decEscMismatch
  | decCrc
deriving DecidableEq, Repr

/-- The value of a code in STATUS (R141). -/
def StatusCode.code : StatusCode → Byte
  | .ok => 0x00#8
  | .errIllegal => 0x01#8
  | .errReserved => 0x02#8
  | .errArg => 0x03#8
  | .encSubopRange => 0x10#8
  | .encTooLong => 0x11#8
  | .encEscOverflow => 0x12#8
  | .decNoSync => 0x20#8
  | .decIncomplete => 0x21#8
  | .decLenShort => 0x30#8
  | .decLenOversize => 0x31#8
  | .decEscOverrun => 0x32#8
  | .decEscMismatch => 0x33#8
  | .decCrc => 0x34#8

/-- Every code of R141, in its order. -/
def StatusCode.all : List StatusCode :=
  [.ok, .errIllegal, .errReserved, .errArg, .encSubopRange, .encTooLong, .encEscOverflow,
   .decNoSync, .decIncomplete, .decLenShort, .decLenOversize, .decEscOverrun, .decEscMismatch, .decCrc]

/-- A value STATUS may hold: `no other value is ever written` (R141). -/
def statusLegal (v : Byte) : Bool := StatusCode.all.any fun c => c.code == v

/-- The class of a code, STATUS[7:4] (R141): 0 success or command error, 1 encode error, 2 decode with no frame yet,
3 decode with a corrupt candidate. -/
def statusClass (v : Byte) : BitVec 4 := v.extractLsb' 4 4

end Sys2Proof.Machine
end

