-- ==== Sys2Proof/Machine/Ops.lean ====
section
/-! DEFINITION. The operations every meaning shares: the buffer primitives of 20_memory.md R44 and R45, the register
accesses of 10_state.md R32 and R33, and the block's error report (60_exceptions.md R146), which stands where another
machine takes an exception. -/

namespace Sys2Proof.Machine

/-! ## Buffers -/

/-- The byte at an index, if its written mark is set (10_state.md R30). -/
def Memory.get? : Memory → Nat → Option Byte
  | [], _ => none
  | (a, b) :: m, i => if a = i then some b else Memory.get? m i

/-- Write one byte and set its mark, keeping the indices rising. -/
def Memory.set : Memory → Nat → Byte → Memory
  | [], i, v => [(i, v)]
  | (a, b) :: m, i, v =>
    if i < a then (i, v) :: (a, b) :: m
    else if i = a then (i, v) :: m
    else (a, b) :: Memory.set m i v

/-- Write a byte sequence from an index on. -/
def Memory.setAll : Memory → Nat → List Byte → Memory
  | m, _, [] => m
  | m, i, b :: S => Memory.setAll (Memory.set m i b) (i + 1) S

/-- The `n` bytes from an index on, if every one of them is written. -/
def Memory.getAll (m : Memory) : Nat → Nat → Option (List Byte)
  | _, 0 => some []
  | i, n + 1 =>
    match Memory.get? m i, Memory.getAll m (i + 1) n with
    | some b, some S => some (b :: S)
    | _, _ => none

/-- Indices strictly rising from `lo` on, and below BUF_LEN. -/
def Memory.risingFrom : Nat → Memory → Bool
  | _, [] => true
  | lo, (a, _) :: m => decide (lo ≤ a) && decide (a < Config.bufLen) && Memory.risingFrom (a + 1) m

/-- The canonical form of a buffer: indices strictly rising, every one of them a buffer index. -/
def Memory.wf (m : Memory) : Bool := Memory.risingFrom 0 m

/-- `MemRead(buf, i, n)`: the index check comes before the marks (R44). -/
def memRead (m : Memory) (i n : Nat) : Except Fault (List Byte) :=
  if Config.bufLen < i + n then .error .indexRange
  else
    match Memory.getAll m i n with
    | none => .error .unwrittenRead
    | some S => .ok S

/-- `MemWrite(buf, i, n, S)` with n the length of S (R45). -/
def memWrite (m : Memory) (i : Nat) (S : List Byte) : Except Fault Memory :=
  if Config.bufLen < i + S.length then .error .indexRange
  else .ok (Memory.setAll m i S)

/-- The buffer a transaction names. -/
def State.buf (s : State) : Buf → Memory
  | .ibuf => s.ibuf
  | .obuf => s.obuf

/-! ## Registers -/

/-- The register a value belongs to. -/
def RegVal.reg : RegVal → Reg
  | .cmd _ => .cmd
  | .status _ => .status
  | .crc _ => .crc
  | .ilen _ => .ilen
  | .start _ => .start
  | .hdrAddr _ => .hdrAddr
  | .hdrOp _ => .hdrOp
  | .olen _ => .olen
  | .fpos _ => .fpos
  | .next _ => .next
  | .flen _ => .flen
  | .fcrc _ => .fcrc
  | .result _ => .result

/-- The host access column of R11: the registers a host write reaches. -/
def Reg.hostWritable : Reg → Bool
  | .cmd | .ilen | .start | .hdrAddr | .hdrOp => true
  | .status | .crc | .olen | .fpos | .next | .flen | .fcrc | .result => false

/-- A whole register, read at its width (20_memory.md R42). -/
def State.readReg (s : State) : Reg → RegVal
  | .cmd => .cmd s.cmd
  | .status => .status s.status
  | .crc => .crc s.crc
  | .ilen => .ilen s.ilen
  | .start => .start s.start
  | .hdrAddr => .hdrAddr s.hdrAddr
  | .hdrOp => .hdrOp s.hdrOp
  | .olen => .olen s.olen
  | .fpos => .fpos s.fpos
  | .next => .next s.next
  | .flen => .flen s.flen
  | .fcrc => .fcrc s.fcrc
  | .result => .result s.result

/-- The storing half of a host register write: a writable register takes the value (R32), any other keeps its own
(R33). Issuing the command that a write to CMD brings is `issue`. -/
def State.writeReg (s : State) : RegVal → State
  | .cmd v => { s with cmd := v }
  | .ilen v => { s with ilen := v }
  | .start v => { s with start := v }
  | .hdrAddr v => { s with hdrAddr := v }
  | .hdrOp v => { s with hdrOp := v }
  | .status _ => s
  | .crc _ => s
  | .olen _ => s
  | .fpos _ => s
  | .next _ => s
  | .flen _ => s
  | .fcrc _ => s
  | .result _ => s

/-! ## The report of a command -/

/-- A command ends by writing its one outcome code to STATUS (10_state.md R13).
The block takes no exception and returns from none: for an error, as for success, this write is all that stands where
another machine saves state and goes to a handler (60_exceptions.md R140, R146, R147). -/
def State.report (c : StatusCode) (s : State) : State := { s with status := c.code }

/-- The reset event (70_reset_and_hazards.md R170): every register at its reset value, every written mark clear.
The host's side of the interface is outside the block and stays (log 3). -/
def State.resetEvent (s : State) : State :=
  { State.reset with pending := s.pending, readData := s.readData }

/-- The host adds transactions after those it already has waiting (log 1). -/
def State.post (s : State) (txs : List HostTx) : State := { s with pending := s.pending ++ txs }

end Sys2Proof.Machine
end

