-- ==== Sys2Proof/Machine/Operands.lean ====
section
/-! DEFINITION. The operand forms of the commands: 16-bit values as two bytes and back (20_memory.md R41), the fields of
HDR_ADDR, HDR_OP and the header byte (10_state.md R17, R18; 30_encoding.md R63), and the input range
IBUF[START..ILEN) with its check (60_exceptions.md R144). -/

namespace Sys2Proof.Machine

/-! ## Byte order -/

/-- `hi8(v) = v[15:8]` (00_scope.md R8). -/
def hi8 (v : Half) : Byte := v.extractLsb' 8 8

/-- `lo8(v) = v[7:0]` (00_scope.md R8). -/
def lo8 (v : Half) : Byte := v.extractLsb' 0 8

/-- `be16(hi, lo) = hi * 256 + lo` (00_scope.md R8). -/
def be16 (hi lo : Byte) : Half := hi ++ lo

/-! ## Header fields -/

/-- SENDER, HDR_ADDR[31:16] (R17). -/
def senderField (a : Word) : Half := a.extractLsb' 16 16

/-- RECEIVER, HDR_ADDR[15:0] (R17). -/
def receiverField (a : Word) : Half := a.extractLsb' 0 16

/-- OPCODE, HDR_OP[15:8] (R18). -/
def opcodeField (v : Half) : Byte := v.extractLsb' 8 8

/-- HDR_OP[7:4], which ENCODE requires to be 0 (R18). -/
def presetField (v : Half) : BitVec 4 := v.extractLsb' 4 4

/-- SUB, HDR_OP[3:0] (R18). -/
def subField (v : Half) : BitVec 4 := v.extractLsb' 0 4

/-- The header byte with D = 0: E in bits 6:4, SUB in bits 3:0 (30_encoding.md R63).
`e` is at most 7 wherever a meaning uses it. -/
def headerByte (e : Nat) (sub : BitVec 4) : Byte := (BitVec.ofNat 8 e <<< 4) ||| sub.setWidth 8

/-- The D flag, bit 7 of the header byte (30_encoding.md R63). -/
def dFlag : Byte := 0x80#8

/-- E of a received header byte, `H[6:4]` (30_encoding.md R63). -/
def escField (h : Byte) : Nat := (h.extractLsb' 4 3).toNat

/-! ## The input range -/

/-- The range check at issue: START <= ILEN <= BUF_LEN (10_state.md R15, R16; 60_exceptions.md R144). -/
def rangeOk (s : State) : Bool :=
  decide (s.ilen.toNat ≤ Config.bufLen) && decide (s.start.toNat ≤ s.ilen.toNat)

/-- The shape CRC_BUF, ESC_COUNT, ENCODE and DECODE share (60_exceptions.md R144): on a bad range answer `onArg`; else
read IBUF[START..ILEN) with one MemRead, before anything is computed (20_memory.md R44), stop on its fault, and go on
with the bytes. -/
def withRange (s : State) (onArg : State) (go : List Byte → Result) : Result :=
  if rangeOk s then
    match memRead s.ibuf s.start.toNat (s.ilen.toNat - s.start.toNat) with
    | .error f => .fault f
    | .ok S => go S
  else .next onArg

end Sys2Proof.Machine
end

