-- ==== Sys2Proof/Machine/Frame.lean ====
section
/-! DEFINITION. Frames as byte sequences: counting and finding sync pairs (41_escape_codec.md R101, R111) and the wire
layout (30_encoding.md R60). -/

namespace Sys2Proof.Machine

/-! ## Sync pairs -/

/-- `esc(P)`: the number of indices at which a sync pair starts, overlapping pairs counted separately (R101). -/
def esc : List Byte → Nat
  | a :: b :: S => (if a = Config.sync ∧ b = Config.sync then 1 else 0) + esc (b :: S)
  | _ => 0

/-- The least index at which a sync pair starts with both bytes in the sequence (R111). -/
def findSync : List Byte → Option Nat
  | a :: b :: S => if a = Config.sync ∧ b = Config.sync then some 0 else (findSync (b :: S)).map (· + 1)
  | _ => none

/-! ## Building a frame (30_encoding.md R60) -/

/-- The bytes of a frame before its CRC field: the 10 header bytes with header byte `h`, then the payload.
LENGTH counts the whole frame (R62). -/
def frameBody (addr : Word) (opcode : Byte) (h : Byte) (payload : List Byte) : List Byte :=
  let len : Half := BitVec.ofNat 16 (Config.hdrLen + payload.length)
  [Config.sync, Config.sync, hi8 len, lo8 len,
   hi8 (senderField addr), lo8 (senderField addr), hi8 (receiverField addr), lo8 (receiverField addr),
   opcode, h] ++ payload

/-- The disambiguation of R104: D is set when the CRC with D = 0 is the sync pair. -/
def finalHeader (addr : Word) (opcode : Byte) (h : Byte) (payload : List Byte) : Byte :=
  if frameCrc (frameBody addr opcode h payload) = Config.sync16 then h ||| dFlag else h

/-- A body with its CRC field, big-endian (R60, R65). -/
def closeFrame (body : List Byte) : List Byte := body ++ [hi8 (frameCrc body), lo8 (frameCrc body)]

end Sys2Proof.Machine
end

