-- ==== Sys2Proof/Machine/Codec.lean ====
section
/-! DEFINITION. NOP and the escape-count frame codec commands (41_escape_codec.md R100 to R119). -/

namespace Sys2Proof.Machine

/-- NOP, R100: `STATUS <- OK`. -/
def execNop (s : State) : Result := .next (s.report .ok)

/-- ESC_COUNT, R102: the pair count of IBUF[START..ILEN), not clamped to 7. -/
def execEscCount (s : State) : Result :=
  withRange s (s.report .errArg) fun S =>
    .next ({ s with result := BitVec.ofNat 16 (esc S) }.report .ok)

/-! ## ENCODE (R103, R104) -/

/-- A failing ENCODE: its code in STATUS and OLEN <- 0 (R103; 60_exceptions.md R146). -/
def encodeFails (c : StatusCode) (s : State) : State := { s with olen := 0#16 }.report c

/-- The end of a successful ENCODE: the frame with final header byte `h` goes to OBUF, and the result registers are
written (R103). -/
def encodeWrites (s : State) (h : Byte) (payload : List Byte) : Result :=
  let body := frameBody s.hdrAddr (opcodeField s.hdrOp) h payload
  let len : Half := BitVec.ofNat 16 (Config.hdrLen + payload.length)
  match memWrite s.obuf 0 (closeFrame body) with
  | .error f => .fault f
  | .ok m =>
    .next ({ s with obuf := m, olen := len, flen := len, fcrc := frameCrc body,
                    result := h.setWidth 16 }.report .ok)

/-- ENCODE once its payload is read: the checks of R103 in their order, then the frame. -/
def encodePayload (s : State) (payload : List Byte) : Result :=
  if presetField s.hdrOp ≠ 0#4 then .next (encodeFails .encSubopRange s)
  else if Config.maxFrameLen < Config.hdrLen + payload.length then .next (encodeFails .encTooLong s)
  else if Config.escMax < esc payload then
    .next (encodeFails .encEscOverflow { s with result := BitVec.ofNat 16 (esc payload) })
  else
    let h := headerByte (esc payload) (subField s.hdrOp)
    encodeWrites s (finalHeader s.hdrAddr (opcodeField s.hdrOp) h payload) payload

/-- ENCODE, R103. -/
def execEncode (s : State) : Result :=
  withRange s (encodeFails .errArg s) (encodePayload s)

/-! ## DECODE (R110 to R119)

Below `p` is the index in IBUF of the candidate sync pair, and `C` is the window from `p` on, IBUF[p..ILEN), so that
`C[k]` is R110's `B[p+k]` and `ILEN - p` is the length of `C` (log 11). -/

/-- Byte `k` of the candidate; used only where `k` is inside the window. -/
def candByte (C : List Byte) (k : Nat) : Byte := C.getD k 0#8

/-- The declared length L of a candidate (R112). -/
def candLen (C : List Byte) : Half := be16 (candByte C 2) (candByte C 3)

/-- The header byte H of a candidate (R112). -/
def candHeader (C : List Byte) : Byte := candByte C 9

/-- The payload region of a candidate as far as the window reaches: IBUF[p+10..min(p+L-2, ILEN)) (R114). -/
def candPayload (C : List Byte) : List Byte := (C.drop 10).take ((candLen C).toNat - Config.hdrLen)

/-- The trailing CRC field of a complete candidate (R116). -/
def candCrc (C : List Byte) : Half :=
  be16 (candByte C ((candLen C).toNat - 2)) (candByte C ((candLen C).toNat - 1))

/-- A DECODE that does not accept, once it has a candidate: NEXT and STATUS (R118, R119). -/
def decodeRejects (c : StatusCode) (nx : Nat) (s : State) : State :=
  { s with next := BitVec.ofNat 16 nx }.report c

/-- Accept (R117): the fields, the payload and the CRC of the frame go out, and NEXT is `p + L`. -/
def decodeAccepts (s : State) (p : Nat) (C : List Byte) : Result :=
  match memWrite s.obuf 0 (candPayload C) with
  | .error f => .fault f
  | .ok m =>
    .next ({ s with hdrAddr := be16 (candByte C 4) (candByte C 5) ++ be16 (candByte C 6) (candByte C 7),
                    hdrOp := be16 (candByte C 8) (candHeader C),
                    fcrc := candCrc C,
                    obuf := m,
                    olen := BitVec.ofNat 16 ((candLen C).toNat - Config.hdrLen),
                    next := BitVec.ofNat 16 (p + (candLen C).toNat) }.report .ok)

/-- The checks of a candidate whose 12-byte envelope is in the window, in the order of R110: length (R113), escape
overrun (R114), completeness, escape mismatch (R115), CRC (R116). -/
def decodeFramed (s : State) (p : Nat) (C : List Byte) : Result :=
  let len := (candLen C).toNat
  let k := esc (candPayload C)
  let e := escField (candHeader C)
  if len < Config.hdrLen then .next (decodeRejects .decLenShort (p + 1) s)
  else if Config.maxFrameLen < len then .next (decodeRejects .decLenOversize (p + 1) s)
  else if e < k then .next (decodeRejects .decEscOverrun (p + 1) s)
  else if C.length < len then .next (decodeRejects .decIncomplete p s)
  else if k < e then .next (decodeRejects .decEscMismatch (p + 1) s)
  else if frameCrc (C.take (len - 2)) ≠ candCrc C then .next (decodeRejects .decCrc (p + 1) s)
  else decodeAccepts s p C

/-- A candidate at `p` (R112): incomplete with FLEN = 0 when its 12-byte envelope is not in the window; else FLEN
takes the declared length and the checks follow. -/
def decodeCandidate (s : State) (p : Nat) (C : List Byte) : Result :=
  if C.length < Config.hdrLen then .next (decodeRejects .decIncomplete p { s with flen := 0#16 })
  else decodeFramed { s with flen := candLen C } p C

/-- Where the next scan starts when the window holds no sync pair: a trailing sync byte is kept (R111). -/
def noSyncNext (s : State) (W : List Byte) : Nat :=
  if W.getLast? = some Config.sync then s.ilen.toNat - 1 else s.ilen.toNat

/-- No sync pair in the window (R110, R111). -/
def decodeNoSync (s : State) (W : List Byte) : State :=
  decodeRejects .decNoSync (noSyncNext s W)
    { s with fpos := BitVec.ofNat 16 (noSyncNext s W), flen := 0#16 }

/-- DECODE once its window `W` = IBUF[START..ILEN) is read: the sync search (R111), then the candidate. -/
def decodeWindow (s : State) (W : List Byte) : Result :=
  match findSync W with
  | none => .next (decodeNoSync s W)
  | some q =>
    decodeCandidate { s with fpos := BitVec.ofNat 16 (s.start.toNat + q) } (s.start.toNat + q) (W.drop q)

/-- DECODE, R110. -/
def execDecode (s : State) : Result :=
  withRange s (s.report .errArg) (decodeWindow s)

end Sys2Proof.Machine
end

