-- ==== Sys2Proof/Machine/Crc.lean ====
section
/-! DEFINITION. The CRC generator commands (40_crc.md R84 to R87). -/

namespace Sys2Proof.Machine

/-- CRC_INIT, R84: `CRC <- seed; STATUS <- OK`. -/
def execCrcInit (seed : Half) (s : State) : Result :=
  .next ({ s with crc := seed }.report .ok)

/-- CRC_BYTE, R85: `CRC <- step(CRC, b); STATUS <- OK`. -/
def execCrcByte (b : Byte) (s : State) : Result :=
  .next ({ s with crc := crcStep s.crc b }.report .ok)

/-- CRC_BUF, R86: fold IBUF[START..ILEN) into the accumulator; on ERR_ARG the accumulator stays. -/
def execCrcBuf (s : State) : Result :=
  withRange s (s.report .errArg) fun S =>
    .next ({ s with crc := crc16 s.crc S }.report .ok)

/-- CRC_TAB, R87: `RESULT <- T[idx]; STATUS <- OK`. -/
def execCrcTab (idx : Byte) (s : State) : Result :=
  .next ({ s with result := crcTab idx }.report .ok)

end Sys2Proof.Machine
end

