-- ==== Sys2Proof/Machine/HostPort.lean ====
section
/-! DEFINITION. The host's transactions (20_memory.md R40 to R46): what each one does to the block. A write to CMD
issues a command (10_state.md R12, 30_encoding.md R70). -/

namespace Sys2Proof.Machine

/-- A word issued as a command (R70): an illegal or reserved word writes its code to STATUS and nothing else. -/
def issue (w : Word) (s : State) : Result :=
  match decode w with
  | .command i => exec i s
  | .illegal => .next (s.report .errIllegal)
  | .reserved => .next (s.report .errReserved)

/-- A host register write: the value is stored where the host may write (R32, R33), and a write to CMD then issues
the command the word encodes (R12). -/
def hostWriteReg (v : RegVal) (s : State) : Result :=
  match v with
  | .cmd w => issue w (s.writeReg v)
  | .status _ | .crc _ | .ilen _ | .start _ | .hdrAddr _ | .hdrOp _ | .olen _ | .fpos _ | .next _ | .flen _
  | .fcrc _ | .result _ => .next (s.writeReg v)

/-- A host register read returns the whole register and has no side effect (20_memory.md R51). -/
def hostReadReg (r : Reg) (s : State) : Result :=
  .next { s with readData := some (.reg (s.readReg r)) }

/-- A host write of one buffer byte: IBUF takes it (R45), OBUF ignores it (10_state.md R29, R33). An index outside
the buffer is INDEX_RANGE for either buffer (R46; log 6). -/
def hostWriteByte (buf : Buf) (i : Nat) (b : Byte) (s : State) : Result :=
  match buf with
  | .ibuf =>
    match memWrite s.ibuf i [b] with
    | .error f => .fault f
    | .ok m => .next { s with ibuf := m }
  | .obuf => if indexExists i then .next s else .fault .indexRange

/-- A host read of one buffer byte is `MemRead(buf, i, 1)` (R44; log 7) and has no side effect (R51). -/
def hostReadByte (buf : Buf) (i : Nat) (s : State) : Result :=
  match memRead (s.buf buf) i 1 with
  | .error f => .fault f
  | .ok S => .next { s with readData := some (.byte buf i (S.getD 0 0#8)) }

/-- One transaction of the outside world, done whole (20_memory.md R50). -/
def transact (tx : HostTx) (s : State) : Result :=
  match tx with
  | .writeReg v => hostWriteReg v s
  | .readReg r => hostReadReg r s
  | .writeByte buf i b => hostWriteByte buf i b s
  | .readByte buf i => hostReadByte buf i s
  | .reset => .next s.resetEvent

/-- One step: the oldest waiting transaction is done and taken off the queue; with none waiting the block is idle and
holds its state (60_exceptions.md R154, 70_reset_and_hazards.md R171; log 1). -/
def stepPending (s : State) : Result :=
  match s.pending with
  | [] => .next s
  | tx :: rest => transact tx { s with pending := rest }

/-- The host has a write of `w` to CMD waiting as its very next transaction. -/
def State.withCommandWord (s : State) (w : Word) : State :=
  { s with pending := .writeReg (.cmd w) :: s.pending }

end Sys2Proof.Machine
end

