-- ==== Sys2Proof/Machine/Step.lean ====
section
/-! DEFINITION. The step of the machine: one transaction of the host, done whole (20_memory.md R50, R54). -/

namespace Sys2Proof.Machine

/-- One step: the oldest transaction the host has waiting; the block is idle when there is none. -/
def step (s : State) : Host.Outcome State Fault Refusal := stepPending s

/-- The block fetches nothing (10_state.md R25): its program is what the host writes to CMD. So the next instruction
is placed by placing the host's write of it to CMD before everything else the host has waiting (log 1). -/
def State.withFetchWord (s : State) (nbits w : Nat) : State := s.withCommandWord (tableWord nbits w)

end Sys2Proof.Machine
end

