-- ==== Sys2Proof/Safety.lean ====
section
/-! DEFINITION. The terms claims are stated in: written marks, readable input ranges, sync pairs and declared lengths read
straight from a buffer by absolute index, and the invariant of the machine. Nothing here is used by the model. -/

namespace Sys2Proof.Machine

/-! ## Buffers by index -/

/-- The written mark of a buffer byte (10_state.md R30). -/
def Memory.written (m : Memory) (i : Nat) : Prop := ∃ b, Memory.get? m i = some b

/-- The byte at an index, for an index that is written; 0 stands for no byte where it is not. -/
def byteAt (m : Memory) (i : Nat) : Byte := (Memory.get? m i).getD 0#8

/-- `B[lo..hi)`: the bytes from `lo` to `hi - 1` (00_scope.md R8), for written indices. -/
def bytesAt (m : Memory) (lo hi : Nat) : List Byte := (List.range' lo (hi - lo)).map (byteAt m)

/-- A sync pair starts at `i`: both bytes are written and are 0xA5 (30_encoding.md R61). -/
def pairAt (m : Memory) (i : Nat) : Bool :=
  (Memory.get? m i == some 0xA5#8) && (Memory.get? m (i + 1) == some 0xA5#8)

/-- The number of indices `i` at which a sync pair starts with both bytes in `[lo, hi)`, that is
`pairs(B, lo, hi - 2)` of 41_escape_codec.md R101: overlapping pairs count separately. -/
def pairsIn (m : Memory) (lo hi : Nat) : Nat :=
  ((List.range hi).filter fun i => decide (lo ≤ i) && decide (i + 1 < hi) && pairAt m i).length

/-- `be16(B[i], B[i+1])` as a number (00_scope.md R8). -/
def be16At (m : Memory) (i : Nat) : Nat := (byteAt m i).toNat * 256 + (byteAt m (i + 1)).toNat

/-! ## Input ranges -/

/-- START <= ILEN <= BUF_LEN: the range passes the check at issue (60_exceptions.md R144). -/
def RangeValid (s : State) : Prop := s.start.toNat ≤ s.ilen.toNat ∧ s.ilen.toNat ≤ 8192

/-- The range is valid and every byte of it is written: what a host must do before a command that uses the range
(70_reset_and_hazards.md R172). -/
def RangeReadable (s : State) : Prop :=
  RangeValid s ∧ ∀ i, s.start.toNat ≤ i → i < s.ilen.toNat → Memory.written s.ibuf i

/-- The number of bytes of the input range: the payload length of an ENCODE. -/
def rangeLength (s : State) : Nat := s.ilen.toNat - s.start.toNat

/-- The sync pairs wholly inside the input range (41_escape_codec.md R101, R102). -/
def rangePairs (s : State) : Nat := pairsIn s.ibuf s.start.toNat s.ilen.toNat

/-- The header byte of an ENCODE with D = 0: the pair count in bits 6:4, HDR_OP[3:0] in bits 3:0
(41_escape_codec.md R103). -/
def plainHeader (s : State) : Byte := BitVec.ofNat 8 (rangePairs s * 16 + s.hdrOp.toNat % 16)

/-- What makes an ENCODE succeed: a readable range, HDR_OP[7:4] = 0, a frame of at most MAX_FRAME_LEN bytes and at most 7
pairs (41_escape_codec.md R103). -/
structure EncodeFits (s : State) : Prop where
  readable : RangeReadable s
  subFits : s.hdrOp.toNat / 16 % 16 = 0
  frameFits : 12 + rangeLength s ≤ 8192
  pairsFit : rangePairs s ≤ 7

/-- A command that uses the input range (10_state.md R28). -/
def usesRange : Instr → Bool
  | .crcBuf | .escCount | .encode | .decode => true
  | .nop | .crcInit _ | .crcByte _ | .crcTab _ => false

/-! ## Candidates -/

/-- `p` is the least index of the window at which a sync pair starts with both bytes inside it
(41_escape_codec.md R111). -/
structure FirstPair (s : State) (p : Nat) : Prop where
  fromStart : s.start.toNat ≤ p
  inWindow : p + 1 < s.ilen.toNat
  pair : pairAt s.ibuf p = true
  least : ∀ i, s.start.toNat ≤ i → i < p → pairAt s.ibuf i = false

/-- The window is readable, `p` is its first sync pair, the 12-byte envelope is in the window, and `len` is the declared
length (41_escape_codec.md R112). -/
structure Candidate (s : State) (p len : Nat) : Prop where
  readable : RangeReadable s
  first : FirstPair s p
  envelope : p + 12 ≤ s.ilen.toNat
  declared : len = be16At s.ibuf (p + 2)

/-- E of the header byte of a candidate at `p`: bits 6:4 of B[p+9] (30_encoding.md R63). -/
def escAt (m : Memory) (p : Nat) : Nat := (byteAt m (p + 9)).toNat / 16 % 8

/-- k of 41_escape_codec.md R114: the sync pairs wholly inside the payload region [p+10, p+L-3] of a candidate, as far
as the window reaches. -/
def payloadPairs (s : State) (p len : Nat) : Nat := pairsIn s.ibuf (p + 10) (min (p + len - 2) s.ilen.toNat)

/-- A buffer `m` after a successful ENCODE from `s`, with final header byte `h` and appended CRC `c`: the wire frame of
30_encoding.md R60 stands in it from index 0, and every byte beyond the frame is as before. -/
structure EncodedFrame (s : State) (m : Memory) (h : Byte) (c : Half) : Prop where
  sync0 : Memory.get? m 0 = some 0xA5#8
  sync1 : Memory.get? m 1 = some 0xA5#8
  lengthHi : Memory.get? m 2 = some (BitVec.ofNat 8 ((12 + rangeLength s) / 256))
  lengthLo : Memory.get? m 3 = some (BitVec.ofNat 8 (12 + rangeLength s))
  senderHi : Memory.get? m 4 = some (BitVec.ofNat 8 (s.hdrAddr.toNat / 2 ^ 24))
  senderLo : Memory.get? m 5 = some (BitVec.ofNat 8 (s.hdrAddr.toNat / 2 ^ 16))
  receiverHi : Memory.get? m 6 = some (BitVec.ofNat 8 (s.hdrAddr.toNat / 2 ^ 8))
  receiverLo : Memory.get? m 7 = some (BitVec.ofNat 8 s.hdrAddr.toNat)
  opcode : Memory.get? m 8 = some (BitVec.ofNat 8 (s.hdrOp.toNat / 256))
  header : Memory.get? m 9 = some h
  payload : ∀ k, k < rangeLength s → Memory.get? m (10 + k) = Memory.get? s.ibuf (s.start.toNat + k)
  crcHi : Memory.get? m (10 + rangeLength s) = some (BitVec.ofNat 8 (c.toNat / 256))
  crcLo : Memory.get? m (11 + rangeLength s) = some (BitVec.ofNat 8 c.toNat)
  beyond : ∀ j, 12 + rangeLength s ≤ j → Memory.get? m j = Memory.get? s.obuf j
  /-- The CRC field covers every byte before it (R65). -/
  crcCovers : c = crc16 0xFFFF#16 (bytesAt m 0 (10 + rangeLength s))
  /-- E and SUB in the header byte, D set exactly when the CRC with D = 0 is 0xA5A5 (R63; 41_escape_codec.md R104). -/
  disambiguated : h =
    if crc16 0xFFFF#16 (bytesAt m 0 9 ++ [plainHeader s] ++ bytesAt m 10 (10 + rangeLength s)) = 0xA5A5#16
    then plainHeader s ||| 0x80#8 else plainHeader s

/-- A host that repeats DECODE, each time copying NEXT to START (DECODE.ADVANCE, 30_encoding.md R74), and stops at the
first DEC_NO_SYNC or DEC_INCOMPLETE: the state it stops in, if it stops within `n` commands
(41_escape_codec.md R122). -/
def scanLoop : Nat → State → Option State
  | 0, _ => none
  | n + 1, s =>
    match exec .decode s with
    | .next t => if t.status = 0x20#8 ∨ t.status = 0x21#8 then some t else scanLoop n { t with start := t.next }
    | .fault _ => none
    | .refused _ => none

/-! ## The invariant -/

/-- What holds in every state a run reaches (10_state.md R11, R19 to R21, R30; 60_exceptions.md R141). -/
structure Inv (s : State) : Prop where
  /-- IBUF is in canonical form: every index below BUF_LEN, rising. -/
  ibufWf : Memory.wf s.ibuf = true
  /-- OBUF is in canonical form: every index below BUF_LEN, rising. -/
  obufWf : Memory.wf s.obuf = true
  /-- STATUS holds one of the fourteen codes (R141). -/
  statusLegal : statusLegal s.status = true
  /-- OLEN is at most BUF_LEN. -/
  olenBounded : s.olen.toNat ≤ Config.bufLen
  /-- Every byte OLEN counts is written: the host can read OBUF[0..OLEN) (70_reset_and_hazards.md R172). -/
  outputWritten : ∀ i, i < s.olen.toNat → Memory.written s.obuf i
  /-- FPOS never stands beyond NEXT (41_escape_codec.md R119). -/
  fposLeNext : s.fpos.toNat ≤ s.next.toNat
  /-- NEXT is an index of the buffer or its end (41_escape_codec.md R110). -/
  nextBounded : s.next.toNat ≤ Config.bufLen

end Sys2Proof.Machine
end

