-- ==== Sys2Proof/Certificates/Slice0/Obligations.lean ====
section
/-! DEFINITION. The statements about the model, from the numbered rules of spec/. Each docstring names the rule it
formalises, or says what it rests on where it is derived. -/

namespace Sys2Proof.Machine

/-- The state `s` after a DECODE that ends with code `c`, candidate index `p`, NEXT `nx` and FLEN `len`, and writes nothing
else (41_escape_codec.md R118). -/
def decodeEnds (s : State) (c : Byte) (p nx len : Nat) : State :=
  { s with status := c, fpos := BitVec.ofNat 16 p, next := BitVec.ofNat 16 nx, flen := BitVec.ofNat 16 len }

/-- The codes a command may leave in STATUS (60_exceptions.md R141, column `written by`). -/
def codesOf : Instr → List Byte
  | .nop | .crcInit _ | .crcByte _ | .crcTab _ => [0x00#8]
  | .crcBuf | .escCount => [0x00#8, 0x03#8]
  | .encode => [0x00#8, 0x03#8, 0x10#8, 0x11#8, 0x12#8]
  | .decode => [0x00#8, 0x03#8, 0x20#8, 0x21#8, 0x30#8, 0x31#8, 0x32#8, 0x33#8, 0x34#8]

/-- A register is the same after both of two runs, or neither run changed it. -/
def SameEffect {α : Type} (before₁ after₁ before₂ after₂ : α) : Prop :=
  after₁ = after₂ ∨ (after₁ = before₁ ∧ after₂ = before₂)

/-- Two states agree on what a command reads (20_memory.md R48). -/
structure ReadSetAgrees (i : Instr) (s u : State) : Prop where
  start : usesRange i = true → s.start = u.start
  ilen : usesRange i = true → s.ilen = u.ilen
  input : usesRange i = true → ∀ a, s.start.toNat ≤ a → a < s.ilen.toNat → Memory.get? s.ibuf a = Memory.get? u.ibuf a
  crc : (i = .crcBuf ∨ ∃ b, i = .crcByte b) → s.crc = u.crc
  hdrAddr : i = .encode → s.hdrAddr = u.hdrAddr
  hdrOp : i = .encode → s.hdrOp = u.hdrOp

end Sys2Proof.Machine

open Sys2Proof Sys2Proof.Machine

/-! ## Encoding -/

/-- Decoding and encoding agree on every word and every command: no bit of an encoding is dropped, and every legal word has
one meaning (derived from the layout of 30_encoding.md section 2). -/
def Obligations.DecodeAgreesWithEncode : Prop :=
  ∀ (w : Word) (i : Instr), decode w = .command i ↔ encode i = w

/-- R68, R69: a word decodes to a command exactly when it has the command's code, 0 in the command's must-be-zero bits, and
the immediate the command carries; the word is read as a number. -/
def Obligations.DecoderReadsEveryCommand : Prop :=
  ∀ w : Word,
    let opc := w.toNat % 256
    let rsv := w.toNat / 256 % 256
    let imm := w.toNat / 65536
    (decode w = .command .nop ↔ opc = 0 ∧ rsv = 0 ∧ imm = 0) ∧
    (∀ seed : Half, decode w = .command (.crcInit seed) ↔ opc = 1 ∧ rsv = 0 ∧ imm = seed.toNat) ∧
    (∀ b : Byte, decode w = .command (.crcByte b) ↔ opc = 2 ∧ rsv = 0 ∧ imm = b.toNat) ∧
    (decode w = .command .crcBuf ↔ opc = 3 ∧ rsv = 0 ∧ imm = 0) ∧
    (∀ idx : Byte, decode w = .command (.crcTab idx) ↔ opc = 4 ∧ rsv = 0 ∧ imm = idx.toNat) ∧
    (decode w = .command .escCount ↔ opc = 5 ∧ rsv = 0 ∧ imm = 0) ∧
    (decode w = .command .encode ↔ opc = 6 ∧ rsv = 0 ∧ imm = 0) ∧
    (decode w = .command .decode ↔ opc = 7 ∧ rsv = 0 ∧ imm = 0)

/-- Words written out from the forms of R73, one for each command. -/
def Obligations.SampleWordsDecode : Prop :=
  decode 0x00000000#32 = .command .nop ∧
  decode 0xABCD0001#32 = .command (.crcInit 0xABCD#16) ∧
  decode 0x00310002#32 = .command (.crcByte 0x31#8) ∧
  decode 0x00000003#32 = .command .crcBuf ∧
  decode 0x00A50004#32 = .command (.crcTab 0xA5#8) ∧
  decode 0x00000005#32 = .command .escCount ∧
  decode 0x00000006#32 = .command .encode ∧
  decode 0x00000007#32 = .command .decode

/-! ## The step and the host's transactions -/

/-- R12's `A host write of word w to CMD stores w in CMD and issues the command that w encodes`, at the step: with that write
the oldest transaction waiting (log 1), the step is `exec` of the command, on the state that holds the word and has one
transaction less; and the word of a well-formed instruction is such a word. -/
def Obligations.StepRunsDecodedCommand : Prop :=
  ∀ (s : State) (w : Word) (rest : List HostTx) (i : Instr),
    s.pending = .writeReg (.cmd w) :: rest → i.wellFormed = true → (decode w = .command i ∨ w = encode i) →
    step s = exec i { s with cmd := w, pending := rest }

/-- A step does the oldest waiting transaction and takes nothing else off the queue; with none waiting nothing changes; and
only a host read changes what the host has read (the model's own fields, log 1 and log 2; the order of 20_memory.md R54). -/
def Obligations.OneTransactionPerStep : Prop :=
  ∀ s t : State, step s = .next t →
    (s.pending = [] ∧ t = s) ∨
    ∃ tx, s.pending = tx :: t.pending ∧ transact tx { s with pending := t.pending } = .next t ∧
      (t.readData ≠ s.readData → (∃ r, tx = .readReg r) ∨ ∃ b i, tx = .readByte b i)

/-- R71: an illegal word only writes ERR_ILLEGAL, a reserved word only ERR_RESERVED (CMD holds the word, R12). -/
def Obligations.IllegalAndReservedWordsOnlyReport : Prop :=
  ∀ (s : State) (w : Word),
    (8 ≤ w.toNat % 256 → transact (.writeReg (.cmd w)) s = .next { s with cmd := w, status := 0x01#8 }) ∧
    (w.toNat % 256 = 1 ∧ w &&& 0x0000FF00#32 ≠ 0#32 ∨
      (w.toNat % 256 = 2 ∨ w.toNat % 256 = 4) ∧ w &&& 0xFF00FF00#32 ≠ 0#32 ∨
      (w.toNat % 256 = 0 ∨ w.toNat % 256 = 3 ∨ w.toNat % 256 = 5 ∨ w.toNat % 256 = 6 ∨ w.toNat % 256 = 7) ∧
        w &&& 0xFFFFFF00#32 ≠ 0#32 →
      transact (.writeReg (.cmd w)) s = .next { s with cmd := w, status := 0x02#8 })

/-- R32 and R33: a writable register takes the value and nothing else changes; a read-only register, and OBUF, ignore it. -/
def Obligations.HostWritesReachWritableRegistersOnly : Prop :=
  ∀ s : State,
    (∀ v, transact (.writeReg (.ilen v)) s = .next { s with ilen := v }) ∧
    (∀ v, transact (.writeReg (.start v)) s = .next { s with start := v }) ∧
    (∀ v, transact (.writeReg (.hdrAddr v)) s = .next { s with hdrAddr := v }) ∧
    (∀ v, transact (.writeReg (.hdrOp v)) s = .next { s with hdrOp := v }) ∧
    (∀ v, transact (.writeReg (.cmd v)) s = issue v { s with cmd := v }) ∧
    (∀ v : RegVal, v.reg ∈ [Reg.status, .crc, .olen, .fpos, .next, .flen, .fcrc, .result] →
      transact (.writeReg v) s = .next s) ∧
    (∀ i v, i < 8192 → transact (.writeByte .obuf i v) s = .next s)

/-- R51: no read of a register or of a buffer byte has a side effect, and two reads return the same; a write to CMD is the
only transaction that does more than store its value. `readData` is where the model puts what a read returns (log 2), and
the reset event is no transaction of the host's. -/
def Obligations.HostReadsHaveNoSideEffect : Prop :=
  ∀ (s t : State) (tx : HostTx), transact tx s = .next t →
    ((∃ r, tx = .readReg r) ∨ (∃ b i, tx = .readByte b i) →
      t = { s with readData := t.readData } ∧ transact tx t = .next t) ∧
    ((∃ v, tx = .writeReg v ∧ v.reg ≠ .cmd) ∨ (∃ b i v, tx = .writeByte b i v) →
      t = s ∨
      (tx = .writeReg (.ilen t.ilen) ∧ t = { s with ilen := t.ilen }) ∨
      (tx = .writeReg (.start t.start) ∧ t = { s with start := t.start }) ∨
      (tx = .writeReg (.hdrAddr t.hdrAddr) ∧ t = { s with hdrAddr := t.hdrAddr }) ∨
      (tx = .writeReg (.hdrOp t.hdrOp) ∧ t = { s with hdrOp := t.hdrOp }) ∨
      ∃ i v, tx = .writeByte .ibuf i v ∧ t = { s with ibuf := t.ibuf } ∧
        ∀ j, Memory.get? t.ibuf j = if j = i then some v else Memory.get? s.ibuf j)

/-- What a host read returns, at the place the model puts it (log 2): each of the thirteen registers of 10_state.md R11 whole,
and a written buffer byte. -/
def Obligations.HostReadReturnsRegisterOrByte : Prop :=
  ∀ s : State,
    (∀ v ∈ [RegVal.cmd s.cmd, .status s.status, .crc s.crc, .ilen s.ilen, .start s.start, .hdrAddr s.hdrAddr,
        .hdrOp s.hdrOp, .olen s.olen, .fpos s.fpos, .next s.next, .flen s.flen, .fcrc s.fcrc, .result s.result],
      transact (.readReg v.reg) s = .next { s with readData := some (.reg v) }) ∧
    (∀ i b, i < 8192 → Memory.get? s.ibuf i = some b →
      transact (.readByte .ibuf i) s = .next { s with readData := some (.byte .ibuf i b) }) ∧
    (∀ i b, i < 8192 → Memory.get? s.obuf i = some b →
      transact (.readByte .obuf i) s = .next { s with readData := some (.byte .obuf i b) })

/-- A read of a byte whose mark is clear raises UNWRITTEN_READ: by a command over its valid input range and by the host for
a byte of OBUF, as 20_memory.md R47 says, and by the host for a byte of IBUF, which R47 does not name and the model reads
from R44's `MemRead(buf, i, 1)` (log 7). -/
def Obligations.UnwrittenReadsFault : Prop :=
  ∀ s : State,
    (∀ i a, usesRange i = true → RangeValid s → s.start.toNat ≤ a → a < s.ilen.toNat → ¬ Memory.written s.ibuf a →
      exec i s = .fault .unwrittenRead) ∧
    (∀ b a, a < 8192 → ¬ Memory.written (s.buf b) a → transact (.readByte b a) s = .fault .unwrittenRead)

/-- A host transaction on a buffer index of 8192 or more faults INDEX_RANGE (20_memory.md R44 to R46), a write to OBUF among
them (the model's reading, log 6); a write inside IBUF stores its byte, sets its mark and changes nothing else. -/
def Obligations.HostBufferIndexChecks : Prop :=
  ∀ (s : State) (i : Nat) (v : Byte),
    (8192 ≤ i → ∀ b, transact (.writeByte b i v) s = .fault .indexRange ∧
      transact (.readByte b i) s = .fault .indexRange) ∧
    (i < 8192 → ∃ m, transact (.writeByte .ibuf i v) s = .next { s with ibuf := m } ∧
      ∀ j, Memory.get? m j = if j = i then some v else Memory.get? s.ibuf j)

/-- R170: the reset event sets every register to its reset value and clears every written mark, whatever came before, and
issues no command (T is a constant of the model, log 9, so it is untouched); and no
other transaction clears a mark. -/
def Obligations.ResetEventAndWrittenMarks : Prop :=
  ∀ s : State,
    (∃ t, transact .reset s = .next t ∧
      t.crc = 0xFFFF#16 ∧ t.status = 0x00#8 ∧ t.cmd = 0#32 ∧ t.ilen = 0#16 ∧ t.start = 0#16 ∧ t.hdrAddr = 0#32 ∧
      t.hdrOp = 0#16 ∧ t.olen = 0#16 ∧ t.fpos = 0#16 ∧ t.next = 0#16 ∧ t.flen = 0#16 ∧ t.fcrc = 0#16 ∧
      t.result = 0#16 ∧ (∀ i, ¬ Memory.written t.ibuf i) ∧ ∀ i, ¬ Memory.written t.obuf i) ∧
    (∀ tx t i, tx ≠ .reset → transact tx s = .next t →
      (Memory.written s.ibuf i → Memory.written t.ibuf i) ∧ (Memory.written s.obuf i → Memory.written t.obuf i))

/-! ## CRC generator -/

/-- R84 and R100: NOP writes STATUS, CRC_INIT writes CRC and STATUS, and neither writes anything else; each with its word. -/
def Obligations.NopAndCrcInitComplete : Prop :=
  decode 0x00000000#32 = .command .nop ∧
  (∀ seed : Half, decode (seed ++ 0x0001#16) = .command (.crcInit seed)) ∧
  ∀ s : State, exec .nop s = .next { s with status := 0x00#8 } ∧
    ∀ seed, exec (.crcInit seed) s = .next { s with crc := seed, status := 0x00#8 }

/-- R80 and R87: CRC_TAB answers, for every index, the entry the construction of R80 gives: eight shifts of the index. The
word is the index over OPC 0x04. -/
def Obligations.CrcTabReadsConstructedTable : Prop :=
  ∀ (idx : Byte) (s : State),
    decode (0x00#8 ++ idx ++ 0x0004#16) = .command (.crcTab idx) ∧
    exec (.crcTab idx) s = .next { s with result := crcShift8 (idx.setWidth 16), status := 0x00#8 }

/-- R85: CRC_BYTE writes step(CRC, b) = (CRC >> 8) ^ T[(CRC ^ b) & 0xFF], with T by the construction of R80, and STATUS.
The word is the byte over OPC 0x02. -/
def Obligations.CrcByteIsOneTableStep : Prop :=
  ∀ (b : Byte) (s : State),
    decode (0x00#8 ++ b ++ 0x0002#16) = .command (.crcByte b) ∧
    exec (.crcByte b) s = .next { s with
      crc := (s.crc >>> 8) ^^^ crcShift8 ((s.crc ^^^ b.setWidth 16) &&& 0x00FF#16), status := 0x00#8 }

/-- The table update equals the bit-serial reflected update (which R81 gives from general knowledge): CRC_BYTE is eight
shifts of CRC ^ b. -/
def Obligations.CrcByteIsBitSerial : Prop :=
  ∀ (b : Byte) (s : State),
    exec (.crcByte b) s = .next { s with crc := crcShift8 (s.crc ^^^ b.setWidth 16), status := 0x00#8 }

/-- R86: CRC_BUF reports ERR_ARG on a bad range, faults on an unwritten byte, and else folds step over the bytes of the range,
in order, from the accumulator. Its word is 0x00000003. -/
def Obligations.CrcBufFoldsRange : Prop :=
  decode 0x00000003#32 = .command .crcBuf ∧
  ∀ s : State,
    (¬ RangeValid s → exec .crcBuf s = .next { s with status := 0x03#8 }) ∧
    (RangeValid s → ¬ RangeReadable s → exec .crcBuf s = .fault .unwrittenRead) ∧
    (RangeReadable s → exec .crcBuf s = .next { s with
      crc := (List.range (s.ilen.toNat - s.start.toNat)).foldl
        (fun c k => crcStep c (byteAt s.ibuf (s.start.toNat + k))) s.crc,
      status := 0x00#8 })

/-- The splitting law R82 derives, by commands: CRC_BUF up to `j` and then from `j` on leaves what one CRC_BUF leaves. -/
def Obligations.CrcBufSplits : Prop :=
  ∀ (s t u : State) (j : Half), RangeReadable s → s.start.toNat ≤ j.toNat → j.toNat ≤ s.ilen.toNat →
    exec .crcBuf { s with ilen := j } = .next t →
    exec .crcBuf { t with start := j, ilen := s.ilen } = .next u →
    ∃ v, exec .crcBuf s = .next v ∧ u.crc = v.crc

/-- The linearity R83 derives: the CRC unit is linear over XOR in the seed and the bytes jointly; so two runs over the same
bytes differ as the two seeds differ over as many zero bytes, and zero bytes from seed 0 give 0. -/
def Obligations.CrcIsLinear : Prop :=
  (∀ (c₁ c₂ : Half) (S₁ S₂ : List Byte), S₁.length = S₂.length →
    crc16 c₁ S₁ ^^^ crc16 c₂ S₂ = crc16 (c₁ ^^^ c₂) (List.zipWith (· ^^^ ·) S₁ S₂)) ∧
  (∀ (c₁ c₂ : Half) (S : List Byte),
    crc16 c₁ S ^^^ crc16 c₂ S = crc16 (c₁ ^^^ c₂) (List.replicate S.length 0x00#8)) ∧
  ∀ n, crc16 0x0000#16 (List.replicate n 0x00#8) = 0x0000#16

/-- R89: CRC_BUF over `123456789` gives 0xBB3D from seed 0x0000 and 0x4B37 from seed 0xFFFF. -/
def Obligations.CrcCheckValues : Prop :=
  ∀ s : State, RangeReadable s →
    bytesAt s.ibuf s.start.toNat s.ilen.toNat =
      [0x31#8, 0x32#8, 0x33#8, 0x34#8, 0x35#8, 0x36#8, 0x37#8, 0x38#8, 0x39#8] →
    (s.crc = 0x0000#16 → exec .crcBuf s = .next { s with crc := 0xBB3D#16, status := 0x00#8 }) ∧
    (s.crc = 0xFFFF#16 → exec .crcBuf s = .next { s with crc := 0x4B37#16, status := 0x00#8 })

/-! ## ESC_COUNT and ENCODE -/

/-- R101 and R102: RESULT is the number of sync pairs wholly inside the range, overlaps counted and not clamped, and it fits;
a bad range only reports ERR_ARG; an unwritten byte faults. Its word is 0x00000005. -/
def Obligations.EscCountCountsPairs : Prop :=
  decode 0x00000005#32 = .command .escCount ∧
  ∀ s : State,
    (¬ RangeValid s → exec .escCount s = .next { s with status := 0x03#8 }) ∧
    (RangeValid s → ¬ RangeReadable s → exec .escCount s = .fault .unwrittenRead) ∧
    (RangeReadable s → rangePairs s ≤ 8191 ∧
      exec .escCount s = .next { s with result := BitVec.ofNat 16 (rangePairs s), status := 0x00#8 })

/-- R103, R104 and R60: every outcome of ENCODE in the order of its checks, with what each writes, and on success the frame
in OBUF. Its word is 0x00000006. -/
def Obligations.EncodeBuildsFrame : Prop :=
  decode 0x00000006#32 = .command .encode ∧
  ∀ s : State,
    (¬ RangeValid s → exec .encode s = .next { s with olen := 0#16, status := 0x03#8 }) ∧
    (RangeValid s → ¬ RangeReadable s → exec .encode s = .fault .unwrittenRead) ∧
    (RangeReadable s → s.hdrOp.toNat / 16 % 16 ≠ 0 →
      exec .encode s = .next { s with olen := 0#16, status := 0x10#8 }) ∧
    (RangeReadable s → s.hdrOp.toNat / 16 % 16 = 0 → 8192 < 12 + rangeLength s →
      exec .encode s = .next { s with olen := 0#16, status := 0x11#8 }) ∧
    (RangeReadable s → s.hdrOp.toNat / 16 % 16 = 0 → 12 + rangeLength s ≤ 8192 → 7 < rangePairs s →
      exec .encode s = .next { s with olen := 0#16, result := BitVec.ofNat 16 (rangePairs s), status := 0x12#8 }) ∧
    (EncodeFits s → ∃ m h c, EncodedFrame s m h c ∧
      exec .encode s = .next { s with
        obuf := m, olen := BitVec.ofNat 16 (12 + rangeLength s), flen := BitVec.ofNat 16 (12 + rangeLength s),
        fcrc := c, result := h.setWidth 16, status := 0x00#8 })

/-- The law R105 derives: the appended CRC is never the sync value. -/
def Obligations.EncodeNeverAppendsSyncValue : Prop :=
  ∀ s t : State, exec .encode s = .next t → t.status = 0x00#8 → t.fcrc ≠ 0xA5A5#16

/-! ## DECODE -/

/-- R111: the candidate is the least index of a sync pair in the window; with none, DEC_NO_SYNC, and NEXT keeps a trailing
0xA5. -/
def Obligations.DecodeFindsFirstPair : Prop :=
  ∀ s : State, RangeReadable s →
    (∀ p, FirstPair s p → ∃ t, exec .decode s = .next t ∧ t.fpos = BitVec.ofNat 16 p) ∧
    ((∀ i, s.start.toNat ≤ i → i + 1 < s.ilen.toNat → pairAt s.ibuf i = false) →
      let nx := if s.start.toNat < s.ilen.toNat ∧ Memory.get? s.ibuf (s.ilen.toNat - 1) = some 0xA5#8
        then s.ilen.toNat - 1 else s.ilen.toNat
      exec .decode s = .next (decodeEnds s 0x20#8 nx nx 0))

/-- From R112: with fewer than 12 bytes from the candidate on, DEC_INCOMPLETE with NEXT = p and FLEN = 0; else FLEN is the declared
length, and an accept hands the header byte out whole in HDR_OP. -/
def Obligations.DecodeReadsHeaderInsideWindow : Prop :=
  ∀ (s : State) (p : Nat), RangeReadable s → FirstPair s p →
    (s.ilen.toNat < p + 12 → exec .decode s = .next (decodeEnds s 0x21#8 p p 0)) ∧
    (p + 12 ≤ s.ilen.toNat →
      ∃ t, exec .decode s = .next t ∧ t.flen = BitVec.ofNat 16 (be16At s.ibuf (p + 2)) ∧
        (t.status = 0x00#8 → t.hdrOp.toNat % 256 = (byteAt s.ibuf (p + 9)).toNat))

/-- R113: a declared length below 12 is DEC_LEN_SHORT, one above MAX_FRAME_LEN is DEC_LEN_OVERSIZE, both with NEXT = p + 1. -/
def Obligations.DecodeChecksLength : Prop :=
  ∀ (s : State) (p len : Nat), Candidate s p len →
    (len < 12 → exec .decode s = .next (decodeEnds s 0x30#8 p (p + 1) len)) ∧
    (8192 < len → exec .decode s = .next (decodeEnds s 0x31#8 p (p + 1) len))

/-- R114: more pairs in the visible payload region than E reject the candidate at once, complete or not; a complete one with
fewer is rejected too. -/
def Obligations.DecodeRejectsEscapeOverrun : Prop :=
  ∀ (s : State) (p len : Nat), Candidate s p len → 12 ≤ len → len ≤ 8192 →
    (escAt s.ibuf p < payloadPairs s p len → exec .decode s = .next (decodeEnds s 0x32#8 p (p + 1) len)) ∧
    (p + len ≤ s.ilen.toNat → payloadPairs s p len < escAt s.ibuf p →
      exec .decode s = .next (decodeEnds s 0x33#8 p (p + 1) len))

/-- R115: a candidate that passed R113 and R114 and runs past the window is DEC_INCOMPLETE with NEXT = p; a complete one with
fewer pairs than E is DEC_ESC_MISMATCH with NEXT = p + 1. -/
def Obligations.DecodeChecksCompleteness : Prop :=
  ∀ (s : State) (p len : Nat), Candidate s p len → 12 ≤ len → len ≤ 8192 → payloadPairs s p len ≤ escAt s.ibuf p →
    (s.ilen.toNat < p + len → exec .decode s = .next (decodeEnds s 0x21#8 p p len)) ∧
    (p + len ≤ s.ilen.toNat → payloadPairs s p len < escAt s.ibuf p →
      exec .decode s = .next (decodeEnds s 0x33#8 p (p + 1) len))

/-- R116: a complete candidate whose pair count is E and whose CRC over [p, p+L-2) differs from its trailing field is DEC_CRC
with NEXT = p + 1. -/
def Obligations.DecodeChecksCrc : Prop :=
  ∀ (s : State) (p len : Nat), Candidate s p len → 12 ≤ len → len ≤ 8192 → p + len ≤ s.ilen.toNat →
    payloadPairs s p len = escAt s.ibuf p →
    (crc16 0xFFFF#16 (bytesAt s.ibuf p (p + len - 2))).toNat ≠ be16At s.ibuf (p + len - 2) →
    exec .decode s = .next (decodeEnds s 0x34#8 p (p + 1) len)

/-- R117: when every check passes DECODE accepts: the header fields, the payload in OBUF and its length, the CRC, and
NEXT = p + L; nothing else changes, no byte of OBUF beyond the payload among it. -/
def Obligations.DecodeAcceptsFrame : Prop :=
  ∀ (s : State) (p len : Nat), Candidate s p len → 12 ≤ len → len ≤ 8192 → p + len ≤ s.ilen.toNat →
    payloadPairs s p len = escAt s.ibuf p →
    (crc16 0xFFFF#16 (bytesAt s.ibuf p (p + len - 2))).toNat = be16At s.ibuf (p + len - 2) →
    ∃ m, exec .decode s = .next { s with
        status := 0x00#8, fpos := BitVec.ofNat 16 p, next := BitVec.ofNat 16 (p + len), flen := BitVec.ofNat 16 len,
        hdrAddr := BitVec.ofNat 32 (be16At s.ibuf (p + 4) * 65536 + be16At s.ibuf (p + 6)),
        hdrOp := BitVec.ofNat 16 (be16At s.ibuf (p + 8)),
        fcrc := BitVec.ofNat 16 (be16At s.ibuf (p + len - 2)),
        olen := BitVec.ofNat 16 (len - 12), obuf := m } ∧
      ∀ j, Memory.get? m j = if j < len - 12 then Memory.get? s.ibuf (p + 10 + j) else Memory.get? s.obuf j

/-- R118: ERR_ARG writes STATUS only; every other outcome that is no accept leaves HDR_ADDR, HDR_OP, FCRC, OLEN and OBUF. -/
def Obligations.DecodeWithoutAcceptKeepsOutputs : Prop :=
  ∀ s : State,
    (¬ RangeValid s → exec .decode s = .next { s with status := 0x03#8 }) ∧
    (∀ t, exec .decode s = .next t → t.status ≠ 0x00#8 →
      t = { s with status := t.status, fpos := t.fpos, next := t.next, flen := t.flen } ∧
      (t.status = 0x03#8 → t = { s with status := 0x03#8 }))

/-- R119: NEXT by outcome, with p in FPOS and L in FLEN. -/
def Obligations.DecodeNextByOutcome : Prop :=
  ∀ s t : State, exec .decode s = .next t →
    (t.status = 0x00#8 → t.next.toNat = t.fpos.toNat + t.flen.toNat) ∧
    (t.status = 0x20#8 → t.next.toNat =
      if s.start.toNat < s.ilen.toNat ∧ Memory.get? s.ibuf (s.ilen.toNat - 1) = some 0xA5#8
      then s.ilen.toNat - 1 else s.ilen.toNat) ∧
    (t.status = 0x21#8 → t.next = t.fpos) ∧
    (t.status ∈ [0x30#8, 0x31#8, 0x32#8, 0x33#8, 0x34#8] → t.next.toNat = t.fpos.toNat + 1) ∧
    (t.status = 0x03#8 → t.next = s.next)

/-! ## Laws of the codec -/

/-- The round trip R120 derives, in the form R124 uses it: wherever an encoded frame is the first sync pair of a readable
window, with anything after it, DECODE accepts it, returns what was encoded, and stands behind it. -/
def Obligations.EncodedFrameDecodes : Prop :=
  ∀ s : State, EncodeFits s →
    ∃ t, exec .encode s = .next t ∧ t.status = 0x00#8 ∧
      ∀ (u : State) (p : Nat), RangeReadable u → u.start.toNat ≤ p → p + (12 + rangeLength s) ≤ u.ilen.toNat →
        (∀ i, u.start.toNat ≤ i → i < p → pairAt u.ibuf i = false) →
        (∀ k, k < 12 + rangeLength s → Memory.get? u.ibuf (p + k) = Memory.get? t.obuf k) →
        ∃ v, exec .decode u = .next v ∧ v.status = 0x00#8 ∧
          v.fpos.toNat = p ∧ v.next.toNat = p + (12 + rangeLength s) ∧
          v.hdrAddr = s.hdrAddr ∧ v.hdrOp.toNat / 256 = s.hdrOp.toNat / 256 ∧
          v.hdrOp.toNat % 16 = s.hdrOp.toNat % 16 ∧ v.olen.toNat = rangeLength s ∧
          ∀ k, k < rangeLength s → Memory.get? v.obuf k = Memory.get? s.ibuf (s.start.toNat + k)

/-- The corruption law R121 derives for offsets 4 to L-1: an encoded frame alone in the window with one bit inverted there is
rejected. -/
def Obligations.SingleBitErrorRejected : Prop :=
  ∀ (s t u : State) (off bit : Nat), exec .encode s = .next t → t.status = 0x00#8 →
    u.start = 0#16 → u.ilen = t.olen → 4 ≤ off → off < t.olen.toNat → bit < 8 →
    (∀ k, k < t.olen.toNat → Memory.get? u.ibuf k =
      if k = off then (Memory.get? t.obuf k).map (fun b => b ^^^ (1#8 <<< bit)) else Memory.get? t.obuf k) →
    ∃ v, exec .decode u = .next v ∧ v.status ∈ [0x32#8, 0x33#8, 0x34#8]

/-- The scan progress R122 derives: NEXT stays in the window, and it moves past START on every accept and every rejection. -/
def Obligations.DecodeMovesScanForward : Prop :=
  ∀ s t : State, RangeReadable s → exec .decode s = .next t →
    s.start.toNat ≤ t.next.toNat ∧ t.next.toNat ≤ s.ilen.toNat ∧ t.fpos.toNat ≤ t.next.toNat ∧
    (t.next = s.start → t.status = 0x20#8 ∨ t.status = 0x21#8)

/-- The loop bound R122 derives: a host that repeats DECODE from NEXT stops within ILEN - START + 1 commands. -/
def Obligations.ScanLoopStops : Prop :=
  ∀ s : State, RangeReadable s →
    ∃ t, scanLoop (s.ilen.toNat - s.start.toNat + 1) s = some t ∧ (t.status = 0x20#8 ∨ t.status = 0x21#8)

/-- The hazard R174 derives: after an accepted DECODE of a frame whose header byte has E or D set, an ENCODE over a readable
range reports ENC_SUBOP_RANGE until the host rewrites HDR_OP. -/
def Obligations.EncodeAfterAcceptMeetsPresetBits : Prop :=
  ∀ s t : State, exec .decode s = .next t → t.status = 0x00#8 → 16 ≤ (byteAt s.ibuf (t.fpos.toNat + 9)).toNat →
    exec .encode t = .next { t with olen := 0#16, status := 0x10#8 }

/-! ## Rules over all commands -/

/-- Every command ends (R140, R177): it answers a next state, or stops on UNWRITTEN_READ, which only a command over a valid
input range with an unwritten byte does; it raises no INDEX_RANGE (the derived part of 20_memory.md R45) and refuses nothing. -/
def Obligations.CommandsStopOnlyOnUnwrittenReads : Prop :=
  ∀ (i : Instr) (s : State),
    (∃ t, exec i s = .next t) ∧ (usesRange i = true → RangeValid s → RangeReadable s) ∨
    exec i s = .fault .unwrittenRead ∧ usesRange i = true ∧ RangeValid s ∧ ¬ RangeReadable s

/-- R13 and R147: every command writes one of its own codes to STATUS, and what STATUS held before changes nothing. -/
def Obligations.EveryCommandOverwritesStatus : Prop :=
  ∀ (i : Instr) (s : State),
    (∀ t, exec i s = .next t → t.status ∈ codesOf i) ∧ ∀ v : Byte, exec i { s with status := v } = exec i s

/-- R49: the write set of each command, and with it its frame: every register not named is unchanged, and so is every byte of
IBUF, and of OBUF outside [0, L) for ENCODE and outside [0, L-12) for an accepted DECODE. -/
def Obligations.CommandsWriteOnlyTheirWriteSet : Prop :=
  ∀ s t : State,
    (exec .nop s = .next t → t = { s with status := t.status }) ∧
    (∀ seed, exec (.crcInit seed) s = .next t → t = { s with status := t.status, crc := t.crc }) ∧
    (∀ b, exec (.crcByte b) s = .next t → t = { s with status := t.status, crc := t.crc }) ∧
    (exec .crcBuf s = .next t → t = { s with status := t.status, crc := t.crc }) ∧
    (∀ idx, exec (.crcTab idx) s = .next t → t = { s with status := t.status, result := t.result }) ∧
    (exec .escCount s = .next t → t = { s with status := t.status, result := t.result }) ∧
    (exec .encode s = .next t →
      t = { s with status := t.status, obuf := t.obuf, olen := t.olen, flen := t.flen, fcrc := t.fcrc,
                   result := t.result } ∧
      ∀ a, (t.status ≠ 0x00#8 ∨ 12 + rangeLength s ≤ a) → Memory.get? t.obuf a = Memory.get? s.obuf a) ∧
    (exec .decode s = .next t →
      t = { s with status := t.status, fpos := t.fpos, next := t.next, flen := t.flen, hdrAddr := t.hdrAddr,
                   hdrOp := t.hdrOp, fcrc := t.fcrc, olen := t.olen, obuf := t.obuf } ∧
      (t.status ≠ 0x00#8 →
        t.hdrAddr = s.hdrAddr ∧ t.hdrOp = s.hdrOp ∧ t.fcrc = s.fcrc ∧ t.olen = s.olen ∧ t.obuf = s.obuf) ∧
      ∀ a, (t.status ≠ 0x00#8 ∨ be16At s.ibuf (t.fpos.toNat + 2) - 12 ≤ a) →
        Memory.get? t.obuf a = Memory.get? s.obuf a)

/-- R48: a command reads nothing outside its read set. From two states that agree on it, the command stops on both or on
neither, and each register and each byte of OBUF ends the same or is left alone by both. -/
def Obligations.CommandsReadOnlyTheirReadSet : Prop :=
  ∀ (i : Instr) (s u : State), ReadSetAgrees i s u →
    ((∃ t, exec i s = .next t) ↔ ∃ v, exec i u = .next v) ∧
    ∀ t v, exec i s = .next t → exec i u = .next v →
      t.status = v.status ∧
      SameEffect s.crc t.crc u.crc v.crc ∧ SameEffect s.hdrAddr t.hdrAddr u.hdrAddr v.hdrAddr ∧
      SameEffect s.hdrOp t.hdrOp u.hdrOp v.hdrOp ∧ SameEffect s.olen t.olen u.olen v.olen ∧
      SameEffect s.fpos t.fpos u.fpos v.fpos ∧ SameEffect s.next t.next u.next v.next ∧
      SameEffect s.flen t.flen u.flen v.flen ∧ SameEffect s.fcrc t.fcrc u.fcrc v.fcrc ∧
      SameEffect s.result t.result u.result v.result ∧
      ∀ a, SameEffect (Memory.get? s.obuf a) (Memory.get? t.obuf a) (Memory.get? u.obuf a) (Memory.get? v.obuf a)

/-- R14 and R88: CRC is written by CRC_INIT, CRC_BYTE and CRC_BUF and by no other transaction but the reset event; ENCODE and
DECODE neither read nor write it, and compute the CRC of a frame from 0xFFFF, over the bytes before its CRC field. -/
def Obligations.CrcRegisterWriters : Prop :=
  (∀ (s t : State) (tx : HostTx), transact tx s = .next t → t.crc ≠ s.crc →
    tx = .reset ∨ ∃ w i, tx = .writeReg (.cmd w) ∧ decode w = .command i ∧
      ((∃ seed, i = .crcInit seed) ∨ (∃ b, i = .crcByte b) ∨ i = .crcBuf)) ∧
  (∀ (s t : State) (c : Half), (exec .encode s = .next t → exec .encode { s with crc := c } = .next { t with crc := c }) ∧
    (exec .decode s = .next t → exec .decode { s with crc := c } = .next { t with crc := c })) ∧
  (∀ s t : State, exec .encode s = .next t → t.status = 0x00#8 →
    t.fcrc = crc16 0xFFFF#16 (bytesAt t.obuf 0 (t.olen.toNat - 2))) ∧
  (∀ s t : State, exec .decode s = .next t → t.status = 0x00#8 →
    t.fcrc = crc16 0xFFFF#16 (bytesAt s.ibuf t.fpos.toNat (t.fpos.toNat + t.flen.toNat - 2)))

/-- Who writes the buffers and CMD (10_state.md R12, R28, R29): IBUF only a host byte write, OBUF only ENCODE and DECODE, CMD
only a host write to it, and each of them the reset event. -/
def Obligations.BufferAndCmdWriters : Prop :=
  ∀ (s t : State) (tx : HostTx), transact tx s = .next t → tx ≠ .reset →
    (t.ibuf ≠ s.ibuf → ∃ i b, tx = .writeByte .ibuf i b ∧ i < 8192) ∧
    (t.obuf ≠ s.obuf → tx = .writeReg (.cmd (encode .encode)) ∨ tx = .writeReg (.cmd (encode .decode))) ∧
    (t.cmd ≠ s.cmd → tx = .writeReg (.cmd t.cmd))

/-! ## The invariant -/

/-- The state after reset meets the invariant. -/
def Obligations.ResetMeetsInv : Prop := Inv State.reset

/-- Every step keeps the invariant: both buffers stay in canonical form, STATUS stays one of the fourteen codes, every byte
OLEN counts stays readable by the host, and FPOS and NEXT stay in order inside the buffer. -/
def Obligations.StepKeepsInv : Prop :=
  ∀ s t : State, Inv s → step s = .next t → Inv t
end

