-- ==== Sys2Proof/Laws/CrcUnit.lean ====
section
/-! SUPPORT. The laws of the CRC unit's shared operations: the shift register is linear, and a fold runs along the parts of
a sequence. -/

namespace Sys2Proof.Machine

/-! ## The fold -/

@[simp] theorem crc16_nil (c : Half) : crc16 c [] = c := rfl

@[simp] theorem crc16_cons (c : Half) (b : Byte) (S : List Byte) : crc16 c (b :: S) = crc16 (crcStep c b) S := rfl

/-- The fold over a concatenation runs over the first part, then from there over the second. -/
theorem crc16_append (c : Half) (S S' : List Byte) : crc16 c (S ++ S') = crc16 (crc16 c S) S' := by
  simp [crc16, List.foldl_append]

/-! ## The shift register -/

/-- One shift distributes over XOR. -/
theorem crcShift_xor (a b : Half) : crcShift (a ^^^ b) = crcShift a ^^^ crcShift b := by
  simp only [crcShift, BitVec.getLsbD_xor, BitVec.ushiftRight_xor_distrib]
  cases a.getLsbD 0 <;> cases b.getLsbD 0 <;> simp only [Bool.xor_true, Bool.xor_false, Bool.not_true, Bool.not_false,
    if_true, Bool.false_eq_true, if_false]
  · rw [BitVec.xor_assoc]
  · rw [BitVec.xor_assoc, BitVec.xor_assoc, BitVec.xor_comm (b >>> 1)]
  · rw [BitVec.xor_assoc, ← BitVec.xor_assoc Config.poly, BitVec.xor_comm Config.poly, BitVec.xor_assoc (b >>> 1),
      BitVec.xor_self, BitVec.xor_zero]

/-- Eight shifts distribute over XOR. -/
theorem crcShift8_xor (a b : Half) : crcShift8 (a ^^^ b) = crcShift8 a ^^^ crcShift8 b := by
  simp only [crcShift8, crcShift_xor]

/-- A shift with a 0 bit at the bottom is a plain shift. -/
theorem crcShift_of_even {c : Half} (h : c.getLsbD 0 = false) : crcShift c = c >>> 1 := by
  rw [crcShift, h]; rfl

end Sys2Proof.Machine
end

