-- ==== Sys2Proof/Laws/Memory.lean ====
section
/-! SUPPORT. The laws of the buffers: read after write, the canonical form, and what the buffer primitives answer. -/

namespace Sys2Proof.Machine

/-! ## Read after write -/

/-- A read after a one-byte write: the byte at the index written, every other byte as before. -/
@[simp] theorem Memory.get?_set (m : Memory) (i j : Nat) (v : Byte) :
    Memory.get? (Memory.set m i v) j = if j = i then some v else Memory.get? m j := by
  induction m with
  | nil => simp [Memory.set, Memory.get?, eq_comm]
  | cons c m ih =>
    obtain ⟨a, b⟩ := c
    simp only [Memory.set]
    split
    · simp only [Memory.get?, eq_comm]
    · split
      · subst_vars; simp only [Memory.get?, eq_comm]; split <;> rfl
      · simp only [Memory.get?, ih]
        split
        · subst_vars; rw [if_neg (by omega)]
        · rfl

/-- A read after a sequence is written. -/
theorem Memory.get?_setAll (m : Memory) (i j : Nat) (S : List Byte) :
    Memory.get? (Memory.setAll m i S) j =
      if i ≤ j ∧ j < i + S.length then S[j - i]? else Memory.get? m j := by
  induction S generalizing m i with
  | nil => simp only [Memory.setAll, List.length_nil]; rw [if_neg (by omega)]
  | cons b S ih =>
    simp only [Memory.setAll, ih, Memory.get?_set, List.length_cons]
    by_cases h : j = i
    · subst h; simp
    · by_cases h2 : i ≤ j ∧ j < i + (S.length + 1)
      · rw [if_pos (by omega), if_pos h2, show j - i = (j - (i + 1)) + 1 by omega, List.getElem?_cons_succ]
      · rw [if_neg (by omega), if_neg h2, if_neg h]

/-! ## The canonical form -/

theorem Memory.risingFrom_mono {m : Memory} {lo lo' : Nat} (h : Memory.risingFrom lo m = true) (hl : lo' ≤ lo) :
    Memory.risingFrom lo' m = true := by
  cases m with
  | nil => rfl
  | cons c m =>
    simp only [Memory.risingFrom, Bool.and_eq_true, decide_eq_true_eq] at *
    exact ⟨⟨by omega, h.1.2⟩, h.2⟩

theorem Memory.risingFrom_set {m : Memory} {lo i : Nat} (v : Byte) (h : Memory.risingFrom lo m = true)
    (hl : lo ≤ i) (hi : i < Config.bufLen) : Memory.risingFrom lo (Memory.set m i v) = true := by
  induction m generalizing lo with
  | nil => simp [Memory.set, Memory.risingFrom, hl, hi]
  | cons c m ih =>
    obtain ⟨a, b⟩ := c
    simp only [Memory.risingFrom, Bool.and_eq_true, decide_eq_true_eq] at h
    simp only [Memory.set]
    split
    · simp only [Memory.risingFrom, Bool.and_eq_true, decide_eq_true_eq]
      exact ⟨⟨hl, hi⟩, ⟨by omega, h.1.2⟩, h.2⟩
    · split
      · subst_vars
        simp only [Memory.risingFrom, Bool.and_eq_true, decide_eq_true_eq]
        exact ⟨⟨hl, hi⟩, h.2⟩
      · simp only [Memory.risingFrom, Bool.and_eq_true, decide_eq_true_eq]
        exact ⟨h.1, ih h.2 (by omega)⟩

/-- A one-byte write inside the buffer keeps the canonical form. -/
theorem Memory.wf_set {m : Memory} {i : Nat} (v : Byte) (h : Memory.wf m = true) (hi : i < Config.bufLen) :
    Memory.wf (Memory.set m i v) = true :=
  Memory.risingFrom_set v h (Nat.zero_le i) hi

/-- A sequence written inside the buffer keeps the canonical form. -/
theorem Memory.wf_setAll {m : Memory} {i : Nat} {S : List Byte} (h : Memory.wf m = true)
    (hi : i + S.length ≤ Config.bufLen) : Memory.wf (Memory.setAll m i S) = true := by
  induction S generalizing m i with
  | nil => exact h
  | cons b S ih =>
    simp only [List.length_cons] at hi
    exact ih (Memory.wf_set b h (by omega)) (by omega)

theorem Memory.get?_lt_of_risingFrom {m : Memory} {lo i : Nat} {b : Byte} (h : Memory.risingFrom lo m = true)
    (hg : Memory.get? m i = some b) : i < Config.bufLen := by
  induction m generalizing lo with
  | nil => cases hg
  | cons c m ih =>
    obtain ⟨a, v⟩ := c
    simp only [Memory.risingFrom, Bool.and_eq_true, decide_eq_true_eq] at h
    simp only [Memory.get?] at hg
    split at hg
    · omega
    · exact ih h.2 hg

/-- A buffer in canonical form has no byte at or beyond BUF_LEN. -/
theorem Memory.get?_lt {m : Memory} {i : Nat} {b : Byte} (h : Memory.wf m = true)
    (hg : Memory.get? m i = some b) : i < Config.bufLen :=
  Memory.get?_lt_of_risingFrom h hg

/-! ## Reading a sequence -/

/-- A sequence is read exactly when each of its bytes is written, and then it is those bytes. -/
theorem Memory.getAll_eq_some {m : Memory} {i n : Nat} {S : List Byte} :
    Memory.getAll m i n = some S ↔ S.length = n ∧ ∀ k, k < n → Memory.get? m (i + k) = S[k]? := by
  induction n generalizing i S with
  | zero => simp only [Memory.getAll, Option.some.injEq]; constructor
            · rintro rfl; simp
            · rintro ⟨h, -⟩; exact (List.length_eq_zero_iff.1 h).symm
  | succ n ih =>
    constructor
    · intro h
      simp only [Memory.getAll] at h
      split at h
      · rename_i b S' hb hS
        cases h
        obtain ⟨hl, hk⟩ := ih.1 hS
        refine ⟨by simp [hl], fun k hkn => ?_⟩
        cases k with
        | zero => simpa using hb
        | succ k => rw [List.getElem?_cons_succ, ← hk k (by omega)]; congr 1; omega
      · cases h
    · rintro ⟨hl, hk⟩
      cases S with
      | nil => simp at hl
      | cons b S =>
        have h0 : Memory.get? m i = some b := by simpa using hk 0 (by omega)
        have h1 : Memory.getAll m (i + 1) n = some S :=
          ih.2 ⟨by simpa using hl, fun k hkn => by
            have := hk (k + 1) (by omega)
            rw [List.getElem?_cons_succ] at this
            rw [← this]; congr 1; omega⟩
        simp [Memory.getAll, h0, h1]

/-- Reading a sequence fails exactly when one of its bytes is not written. -/
theorem Memory.getAll_eq_none {m : Memory} {i n : Nat} :
    Memory.getAll m i n = none ↔ ∃ k, k < n ∧ Memory.get? m (i + k) = none := by
  induction n generalizing i with
  | zero => simp [Memory.getAll]
  | succ n ih =>
    simp only [Memory.getAll]
    cases h0 : Memory.get? m i with
    | none => simp only [true_iff]; exact ⟨0, by omega, by simpa using h0⟩
    | some b =>
      cases h1 : Memory.getAll m (i + 1) n with
      | none =>
        simp only [true_iff]
        obtain ⟨k, hk, hn⟩ := ih.1 h1
        exact ⟨k + 1, by omega, by rw [← hn]; congr 1; omega⟩
      | some S =>
        simp only [reduceCtorEq, false_iff]
        rintro ⟨k, hk, hn⟩
        cases k with
        | zero => simp [h0] at hn
        | succ k =>
          have : Memory.getAll m (i + 1) n = none :=
            ih.2 ⟨k, by omega, by rw [← hn]; congr 1; omega⟩
          simp [h1] at this

/-! ## The primitives -/

/-- MemRead answers bytes exactly when the range is in the buffer and every byte of it is written. -/
theorem memRead_eq_ok {m : Memory} {i n : Nat} {S : List Byte} :
    memRead m i n = .ok S ↔
      i + n ≤ Config.bufLen ∧ S.length = n ∧ ∀ k, k < n → Memory.get? m (i + k) = S[k]? := by
  unfold memRead
  split
  · simp only [reduceCtorEq, false_iff]; omega
  · rw [← Memory.getAll_eq_some]
    cases Memory.getAll m i n with
    | none => simp
    | some S' => simp; omega

/-- MemRead raises UNWRITTEN_READ exactly when the range is in the buffer and a byte of it is not written. -/
theorem memRead_eq_unwritten {m : Memory} {i n : Nat} :
    memRead m i n = .error .unwrittenRead ↔
      i + n ≤ Config.bufLen ∧ ∃ k, k < n ∧ Memory.get? m (i + k) = none := by
  unfold memRead
  split
  · simp; omega
  · rw [← Memory.getAll_eq_none]
    cases Memory.getAll m i n with
    | none => simp; omega
    | some S' => simp

/-- MemRead raises INDEX_RANGE exactly when the range leaves the buffer. -/
theorem memRead_eq_indexRange {m : Memory} {i n : Nat} :
    memRead m i n = .error .indexRange ↔ Config.bufLen < i + n := by
  unfold memRead
  split
  · simp; omega
  · cases Memory.getAll m i n <;> simp <;> omega

/-- MemWrite inside the buffer writes. -/
theorem memWrite_ok {m : Memory} {i : Nat} {S : List Byte} (h : i + S.length ≤ Config.bufLen) :
    memWrite m i S = .ok (Memory.setAll m i S) := by
  unfold memWrite; rw [if_neg (by omega)]

/-- What MemWrite answers when it writes. -/
theorem memWrite_eq_ok {m m' : Memory} {i : Nat} {S : List Byte} :
    memWrite m i S = .ok m' ↔ i + S.length ≤ Config.bufLen ∧ m' = Memory.setAll m i S := by
  unfold memWrite
  split
  · simp; omega
  · simp only [Except.ok.injEq]; constructor
    · intro h; exact ⟨by omega, h.symm⟩
    · intro h; exact h.2.symm

/-- MemWrite raises INDEX_RANGE exactly when the range leaves the buffer. -/
theorem memWrite_eq_error {m : Memory} {i : Nat} {S : List Byte} {f : Fault} :
    memWrite m i S = .error f ↔ Config.bufLen < i + S.length ∧ f = .indexRange := by
  unfold memWrite
  split
  · simp only [Except.error.injEq]; constructor
    · intro h; exact ⟨by omega, h.symm⟩
    · intro h; exact h.2.symm
  · simp; omega

/-- Every write MemWrite does keeps the canonical form. -/
theorem memWrite_wf {m m' : Memory} {i : Nat} {S : List Byte} (h : Memory.wf m = true)
    (hw : memWrite m i S = .ok m') : Memory.wf m' = true := by
  obtain ⟨hi, rfl⟩ := memWrite_eq_ok.1 hw
  exact Memory.wf_setAll h hi

/-- What a read finds after MemWrite from index 0. -/
theorem memWrite_get? {m m' : Memory} {S : List Byte} (hw : memWrite m 0 S = .ok m') (j : Nat) :
    Memory.get? m' j = if j < S.length then S[j]? else Memory.get? m j := by
  obtain ⟨-, rfl⟩ := memWrite_eq_ok.1 hw
  rw [Memory.get?_setAll]; simp

/-- A reset buffer is in canonical form. -/
theorem reset_buffers_wf : Memory.wf State.reset.ibuf = true ∧ Memory.wf State.reset.obuf = true := by decide

end Sys2Proof.Machine
end

