-- ==== Sys2Proof/Laws/State.lean ====
section
/-! SUPPORT. One lemma per field for each named update of State, so that no later proof unfolds a record update. -/

namespace Sys2Proof.Machine

/-! ## The report of a command -/

@[simp] theorem State.report_status (c : StatusCode) (s : State) : (s.report c).status = c.code := rfl
@[simp] theorem State.report_cmd (c : StatusCode) (s : State) : (s.report c).cmd = s.cmd := rfl
@[simp] theorem State.report_crc (c : StatusCode) (s : State) : (s.report c).crc = s.crc := rfl
@[simp] theorem State.report_ilen (c : StatusCode) (s : State) : (s.report c).ilen = s.ilen := rfl
@[simp] theorem State.report_start (c : StatusCode) (s : State) : (s.report c).start = s.start := rfl
@[simp] theorem State.report_hdrAddr (c : StatusCode) (s : State) : (s.report c).hdrAddr = s.hdrAddr := rfl
@[simp] theorem State.report_hdrOp (c : StatusCode) (s : State) : (s.report c).hdrOp = s.hdrOp := rfl
@[simp] theorem State.report_olen (c : StatusCode) (s : State) : (s.report c).olen = s.olen := rfl
@[simp] theorem State.report_fpos (c : StatusCode) (s : State) : (s.report c).fpos = s.fpos := rfl
@[simp] theorem State.report_next (c : StatusCode) (s : State) : (s.report c).next = s.next := rfl
@[simp] theorem State.report_flen (c : StatusCode) (s : State) : (s.report c).flen = s.flen := rfl
@[simp] theorem State.report_fcrc (c : StatusCode) (s : State) : (s.report c).fcrc = s.fcrc := rfl
@[simp] theorem State.report_result (c : StatusCode) (s : State) : (s.report c).result = s.result := rfl
@[simp] theorem State.report_ibuf (c : StatusCode) (s : State) : (s.report c).ibuf = s.ibuf := rfl
@[simp] theorem State.report_obuf (c : StatusCode) (s : State) : (s.report c).obuf = s.obuf := rfl
@[simp] theorem State.report_pending (c : StatusCode) (s : State) : (s.report c).pending = s.pending := rfl
@[simp] theorem State.report_readData (c : StatusCode) (s : State) : (s.report c).readData = s.readData := rfl

/-! ## A failing ENCODE -/

@[simp] theorem encodeFails_status (c : StatusCode) (s : State) : (encodeFails c s).status = c.code := rfl
@[simp] theorem encodeFails_olen (c : StatusCode) (s : State) : (encodeFails c s).olen = 0#16 := rfl
@[simp] theorem encodeFails_cmd (c : StatusCode) (s : State) : (encodeFails c s).cmd = s.cmd := rfl
@[simp] theorem encodeFails_crc (c : StatusCode) (s : State) : (encodeFails c s).crc = s.crc := rfl
@[simp] theorem encodeFails_ilen (c : StatusCode) (s : State) : (encodeFails c s).ilen = s.ilen := rfl
@[simp] theorem encodeFails_start (c : StatusCode) (s : State) : (encodeFails c s).start = s.start := rfl
@[simp] theorem encodeFails_hdrAddr (c : StatusCode) (s : State) : (encodeFails c s).hdrAddr = s.hdrAddr := rfl
@[simp] theorem encodeFails_hdrOp (c : StatusCode) (s : State) : (encodeFails c s).hdrOp = s.hdrOp := rfl
@[simp] theorem encodeFails_fpos (c : StatusCode) (s : State) : (encodeFails c s).fpos = s.fpos := rfl
@[simp] theorem encodeFails_next (c : StatusCode) (s : State) : (encodeFails c s).next = s.next := rfl
@[simp] theorem encodeFails_flen (c : StatusCode) (s : State) : (encodeFails c s).flen = s.flen := rfl
@[simp] theorem encodeFails_fcrc (c : StatusCode) (s : State) : (encodeFails c s).fcrc = s.fcrc := rfl
@[simp] theorem encodeFails_result (c : StatusCode) (s : State) : (encodeFails c s).result = s.result := rfl
@[simp] theorem encodeFails_ibuf (c : StatusCode) (s : State) : (encodeFails c s).ibuf = s.ibuf := rfl
@[simp] theorem encodeFails_obuf (c : StatusCode) (s : State) : (encodeFails c s).obuf = s.obuf := rfl
@[simp] theorem encodeFails_pending (c : StatusCode) (s : State) : (encodeFails c s).pending = s.pending := rfl
@[simp] theorem encodeFails_readData (c : StatusCode) (s : State) : (encodeFails c s).readData = s.readData := rfl

/-! ## A DECODE that does not accept -/

@[simp] theorem decodeRejects_status (c : StatusCode) (n : Nat) (s : State) : (decodeRejects c n s).status = c.code := rfl
@[simp] theorem decodeRejects_next (c : StatusCode) (n : Nat) (s : State) :
    (decodeRejects c n s).next = BitVec.ofNat 16 n := rfl
@[simp] theorem decodeRejects_cmd (c : StatusCode) (n : Nat) (s : State) : (decodeRejects c n s).cmd = s.cmd := rfl
@[simp] theorem decodeRejects_crc (c : StatusCode) (n : Nat) (s : State) : (decodeRejects c n s).crc = s.crc := rfl
@[simp] theorem decodeRejects_ilen (c : StatusCode) (n : Nat) (s : State) : (decodeRejects c n s).ilen = s.ilen := rfl
@[simp] theorem decodeRejects_start (c : StatusCode) (n : Nat) (s : State) : (decodeRejects c n s).start = s.start := rfl
@[simp] theorem decodeRejects_hdrAddr (c : StatusCode) (n : Nat) (s : State) : (decodeRejects c n s).hdrAddr = s.hdrAddr := rfl
@[simp] theorem decodeRejects_hdrOp (c : StatusCode) (n : Nat) (s : State) : (decodeRejects c n s).hdrOp = s.hdrOp := rfl
@[simp] theorem decodeRejects_olen (c : StatusCode) (n : Nat) (s : State) : (decodeRejects c n s).olen = s.olen := rfl
@[simp] theorem decodeRejects_fpos (c : StatusCode) (n : Nat) (s : State) : (decodeRejects c n s).fpos = s.fpos := rfl
@[simp] theorem decodeRejects_flen (c : StatusCode) (n : Nat) (s : State) : (decodeRejects c n s).flen = s.flen := rfl
@[simp] theorem decodeRejects_fcrc (c : StatusCode) (n : Nat) (s : State) : (decodeRejects c n s).fcrc = s.fcrc := rfl
@[simp] theorem decodeRejects_result (c : StatusCode) (n : Nat) (s : State) : (decodeRejects c n s).result = s.result := rfl
@[simp] theorem decodeRejects_ibuf (c : StatusCode) (n : Nat) (s : State) : (decodeRejects c n s).ibuf = s.ibuf := rfl
@[simp] theorem decodeRejects_obuf (c : StatusCode) (n : Nat) (s : State) : (decodeRejects c n s).obuf = s.obuf := rfl
@[simp] theorem decodeRejects_pending (c : StatusCode) (n : Nat) (s : State) : (decodeRejects c n s).pending = s.pending := rfl
@[simp] theorem decodeRejects_readData (c : StatusCode) (n : Nat) (s : State) : (decodeRejects c n s).readData = s.readData := rfl

/-! ## The reset event and the waiting transactions -/

@[simp] theorem State.resetEvent_cmd (s : State) : s.resetEvent.cmd = State.reset.cmd := rfl
@[simp] theorem State.resetEvent_status (s : State) : s.resetEvent.status = State.reset.status := rfl
@[simp] theorem State.resetEvent_crc (s : State) : s.resetEvent.crc = State.reset.crc := rfl
@[simp] theorem State.resetEvent_ilen (s : State) : s.resetEvent.ilen = State.reset.ilen := rfl
@[simp] theorem State.resetEvent_start (s : State) : s.resetEvent.start = State.reset.start := rfl
@[simp] theorem State.resetEvent_hdrAddr (s : State) : s.resetEvent.hdrAddr = State.reset.hdrAddr := rfl
@[simp] theorem State.resetEvent_hdrOp (s : State) : s.resetEvent.hdrOp = State.reset.hdrOp := rfl
@[simp] theorem State.resetEvent_olen (s : State) : s.resetEvent.olen = State.reset.olen := rfl
@[simp] theorem State.resetEvent_fpos (s : State) : s.resetEvent.fpos = State.reset.fpos := rfl
@[simp] theorem State.resetEvent_next (s : State) : s.resetEvent.next = State.reset.next := rfl
@[simp] theorem State.resetEvent_flen (s : State) : s.resetEvent.flen = State.reset.flen := rfl
@[simp] theorem State.resetEvent_fcrc (s : State) : s.resetEvent.fcrc = State.reset.fcrc := rfl
@[simp] theorem State.resetEvent_result (s : State) : s.resetEvent.result = State.reset.result := rfl
@[simp] theorem State.resetEvent_ibuf (s : State) : s.resetEvent.ibuf = State.reset.ibuf := rfl
@[simp] theorem State.resetEvent_obuf (s : State) : s.resetEvent.obuf = State.reset.obuf := rfl
@[simp] theorem State.resetEvent_pending (s : State) : s.resetEvent.pending = s.pending := rfl
@[simp] theorem State.resetEvent_readData (s : State) : s.resetEvent.readData = s.readData := rfl
@[simp] theorem State.post_pending (s : State) (txs : List HostTx) : (s.post txs).pending = s.pending ++ txs := rfl
@[simp] theorem State.withCommandWord_pending (s : State) (w : Word) :
    (s.withCommandWord w).pending = .writeReg (.cmd w) :: s.pending := rfl

/-! ## Host register writes -/

@[simp] theorem State.writeReg_cmd (s : State) (v : Word) : s.writeReg (.cmd v) = { s with cmd := v } := rfl
@[simp] theorem State.writeReg_ilen (s : State) (v : Half) : s.writeReg (.ilen v) = { s with ilen := v } := rfl
@[simp] theorem State.writeReg_start (s : State) (v : Half) : s.writeReg (.start v) = { s with start := v } := rfl
@[simp] theorem State.writeReg_hdrAddr (s : State) (v : Word) : s.writeReg (.hdrAddr v) = { s with hdrAddr := v } := rfl
@[simp] theorem State.writeReg_hdrOp (s : State) (v : Half) : s.writeReg (.hdrOp v) = { s with hdrOp := v } := rfl

/-- A host write to a register the host may only read changes nothing. -/
theorem State.writeReg_readOnly (s : State) (v : RegVal) (h : v.reg.hostWritable = false) : s.writeReg v = s := by
  cases v <;> first | rfl | cases h

end Sys2Proof.Machine
end

