-- ==== Sys2Proof/Laws/Operands.lean ====
section
/-! SUPPORT. What the shared operand operations answer: the input range of a command and the fields of a value. -/

namespace Sys2Proof.Machine

/-! ## Byte sequences of a buffer -/

@[simp] theorem bytesAt_length (m : Memory) (lo hi : Nat) : (bytesAt m lo hi).length = hi - lo := by
  simp [bytesAt]

theorem bytesAt_getElem? (m : Memory) (lo hi k : Nat) :
    (bytesAt m lo hi)[k]? = if lo + k < hi then some (byteAt m (lo + k)) else none := by
  simp only [bytesAt, List.getElem?_map]
  split
  · rw [List.getElem?_range' (by omega)]; simp
  · rw [List.getElem?_eq_none (by simp; omega)]; rfl

/-- Dropping bytes from the front of a range moves its start. -/
theorem bytesAt_drop (m : Memory) (lo hi q : Nat) : (bytesAt m lo hi).drop q = bytesAt m (lo + q) hi := by
  apply List.ext_getElem?
  intro k
  rw [List.getElem?_drop, bytesAt_getElem?, bytesAt_getElem?, Nat.add_assoc]

/-- Taking bytes from the front of a range moves its end. -/
theorem bytesAt_take (m : Memory) (lo hi n : Nat) : (bytesAt m lo hi).take n = bytesAt m lo (min (lo + n) hi) := by
  apply List.ext_getElem?
  intro k
  rw [List.getElem?_take, bytesAt_getElem?, bytesAt_getElem?]
  split <;> split <;> first | rfl | (split <;> first | rfl | omega) | omega

/-- Two ranges with the same bytes are the same sequence. -/
theorem bytesAt_congr {m m' : Memory} {lo lo' n : Nat} (h : ∀ k, k < n → byteAt m (lo + k) = byteAt m' (lo' + k)) :
    bytesAt m lo (lo + n) = bytesAt m' lo' (lo' + n) := by
  apply List.ext_getElem?
  intro k
  rw [bytesAt_getElem?, bytesAt_getElem?]
  by_cases hk : k < n
  · rw [if_pos (by omega), if_pos (by omega), h k hk]
  · rw [if_neg (by omega), if_neg (by omega)]

/-- A written byte is what the buffer holds. -/
theorem get?_eq_byteAt {m : Memory} {i : Nat} (h : Memory.written m i) : Memory.get? m i = some (byteAt m i) := by
  obtain ⟨b, hb⟩ := h; simp [byteAt, hb]

theorem byteAt_of_get? {m : Memory} {i : Nat} {b : Byte} (h : Memory.get? m i = some b) : byteAt m i = b := by
  simp [byteAt, h]

theorem not_written {m : Memory} {i : Nat} : ¬ Memory.written m i ↔ Memory.get? m i = none := by
  cases h : Memory.get? m i <;> simp [Memory.written, h]

/-! ## The input range -/

theorem rangeOk_iff (s : State) : rangeOk s = true ↔ RangeValid s := by
  rw [rangeOk, Bool.and_eq_true, decide_eq_true_eq, decide_eq_true_eq]
  exact and_comm

/-- A bad range is answered before anything is read. -/
theorem withRange_invalid {s a : State} {go : List Byte → Result} (h : ¬ RangeValid s) :
    withRange s a go = .next a := by
  unfold withRange; rw [if_neg (by rwa [rangeOk_iff])]

/-- A readable range hands its bytes on. -/
theorem withRange_readable {s a : State} {go : List Byte → Result} (h : RangeReadable s) :
    withRange s a go = go (bytesAt s.ibuf s.start.toNat s.ilen.toNat) := by
  obtain ⟨hv, hw⟩ := h
  have hr : memRead s.ibuf s.start.toNat (s.ilen.toNat - s.start.toNat)
      = .ok (bytesAt s.ibuf s.start.toNat s.ilen.toNat) := by
    obtain ⟨h1, h2⟩ := hv
    refine memRead_eq_ok.2 ⟨by simp only [Config.bufLen]; omega, bytesAt_length .., fun k hk => ?_⟩
    rw [get?_eq_byteAt (hw _ (by omega) (by omega)), bytesAt_getElem?, if_pos (by omega)]
  unfold withRange; rw [if_pos (by rwa [rangeOk_iff]), hr]

/-- A valid range with an unwritten byte stops the run. -/
theorem withRange_unwritten {s a : State} {go : List Byte → Result} (hv : RangeValid s) {i : Nat}
    (h1 : s.start.toNat ≤ i) (h2 : i < s.ilen.toNat) (h3 : ¬ Memory.written s.ibuf i) :
    withRange s a go = .fault .unwrittenRead := by
  have hr : memRead s.ibuf s.start.toNat (s.ilen.toNat - s.start.toNat) = .error .unwrittenRead :=
    memRead_eq_unwritten.2 ⟨by obtain ⟨ha, hb⟩ := hv; simp only [Config.bufLen]; omega,
      i - s.start.toNat, by omega, by
        rw [not_written] at h3
        rw [show s.start.toNat + (i - s.start.toNat) = i by omega, h3]⟩
  unfold withRange; rw [if_pos (by rwa [rangeOk_iff]), hr]

/-- Everything a command that uses the input range can do first. -/
theorem withRange_cases (s a : State) (go : List Byte → Result) :
    (¬ RangeValid s ∧ withRange s a go = .next a) ∨
    (RangeValid s ∧ (∃ i, s.start.toNat ≤ i ∧ i < s.ilen.toNat ∧ ¬ Memory.written s.ibuf i) ∧
      withRange s a go = .fault .unwrittenRead) ∨
    (RangeReadable s ∧ withRange s a go = go (bytesAt s.ibuf s.start.toNat s.ilen.toNat)) := by
  by_cases hv : RangeValid s
  · by_cases hw : ∀ i, s.start.toNat ≤ i → i < s.ilen.toNat → Memory.written s.ibuf i
    · exact .inr (.inr ⟨⟨hv, hw⟩, withRange_readable ⟨hv, hw⟩⟩)
    · push Not at hw
      obtain ⟨i, h1, h2, h3⟩ := hw
      exact .inr (.inl ⟨hv, ⟨i, h1, h2, h3⟩, withRange_unwritten hv h1 h2 h3⟩)
  · exact .inl ⟨hv, withRange_invalid hv⟩

/-! ## Byte order -/

theorem be16_toNat (h l : Byte) : (be16 h l).toNat = h.toNat * 256 + l.toNat := by
  simp only [be16, BitVec.toNat_append]
  rw [← Nat.shiftLeft_add_eq_or_of_lt (by exact l.isLt), Nat.shiftLeft_eq]

theorem hi8_toNat (v : Half) : (hi8 v).toNat = v.toNat / 256 := by
  have := v.isLt
  simp only [hi8, BitVec.extractLsb'_toNat, Nat.shiftRight_eq_div_pow]
  omega

theorem lo8_toNat (v : Half) : (lo8 v).toNat = v.toNat % 256 := by
  simp [lo8, BitVec.extractLsb'_toNat]

/-- A 16-bit value written big-endian reads back. -/
@[simp] theorem be16_hi8_lo8 (v : Half) : be16 (hi8 v) (lo8 v) = v := by
  apply BitVec.eq_of_toNat_eq; rw [be16_toNat, hi8_toNat, lo8_toNat]; omega

@[simp] theorem hi8_be16 (h l : Byte) : hi8 (be16 h l) = h := by
  apply BitVec.eq_of_toNat_eq; rw [hi8_toNat, be16_toNat]; have := l.isLt; omega

@[simp] theorem lo8_be16 (h l : Byte) : lo8 (be16 h l) = l := by
  apply BitVec.eq_of_toNat_eq; rw [lo8_toNat, be16_toNat]; have := l.isLt; omega

end Sys2Proof.Machine
end

