-- ==== Sys2Proof/Laws/Frame.lean ====
section
/-! SUPPORT. What counting and finding sync pairs answer, by index into the sequence and by index into a buffer. -/

namespace Sys2Proof.Machine

/-! ## Finding the first pair -/

/-- A sync pair starts at index `k` of a byte sequence (30_encoding.md R61). -/
def pairStarts (S : List Byte) (k : Nat) : Prop := S[k]? = some Config.sync ∧ S[k + 1]? = some Config.sync

theorem pairStarts_succ (a : Byte) (S : List Byte) (k : Nat) : pairStarts (a :: S) (k + 1) ↔ pairStarts S k := by
  simp [pairStarts]

/-- The search answers the least index at which a pair starts. -/
theorem findSync_eq_some {S : List Byte} {q : Nat} :
    findSync S = some q ↔ pairStarts S q ∧ ∀ k, k < q → ¬ pairStarts S k := by
  induction S generalizing q with
  | nil => simp [findSync, pairStarts]
  | cons a S ih =>
    cases S with
    | nil => simp [findSync, pairStarts]
    | cons b S =>
      simp only [findSync]
      have h0 : pairStarts (a :: b :: S) 0 ↔ a = Config.sync ∧ b = Config.sync := by simp [pairStarts]
      split
      · rename_i h
        constructor
        · intro hq; cases hq; exact ⟨h0.2 h, by omega⟩
        · rintro ⟨-, hl⟩
          cases q with
          | zero => rfl
          | succ q => exact absurd (h0.2 h) (hl 0 (by omega))
      · rename_i h
        cases q with
        | zero => simp [h0, h]
        | succ q =>
          rw [Option.map_eq_some_iff]
          constructor
          · rintro ⟨q', hq', he⟩
            cases he
            obtain ⟨h1, h2⟩ := ih.1 hq'
            refine ⟨(pairStarts_succ ..).2 h1, fun k hk => ?_⟩
            cases k with
            | zero => rwa [h0]
            | succ k => rw [pairStarts_succ]; exact h2 k (by omega)
          · rintro ⟨h1, h2⟩
            exact ⟨q, ih.2 ⟨(pairStarts_succ ..).1 h1, fun k hk => by
              have := h2 (k + 1) (by omega); rwa [pairStarts_succ] at this⟩, rfl⟩

/-- The search answers nothing exactly when no pair starts anywhere. -/
theorem findSync_eq_none {S : List Byte} : findSync S = none ↔ ∀ k, ¬ pairStarts S k := by
  constructor
  · intro h k hk
    induction S generalizing k with
    | nil => simp [pairStarts] at hk
    | cons a S ih =>
      cases S with
      | nil => simp [pairStarts] at hk
      | cons b S =>
        simp only [findSync] at h
        split at h
        · cases h
        · rename_i hn
          cases k with
          | zero => simp [pairStarts] at hk; exact hn hk
          | succ k => exact ih (by simpa using h) k ((pairStarts_succ ..).1 hk)
  · intro h
    cases hf : findSync S with
    | none => rfl
    | some q => exact absurd (findSync_eq_some.1 hf).1 (h q)

/-! ## A range of a buffer as a sequence -/

theorem bytesAt_cons (m : Memory) {lo hi : Nat} (h : lo < hi) :
    bytesAt m lo hi = byteAt m lo :: bytesAt m (lo + 1) hi := by
  simp only [bytesAt]
  rw [show hi - lo = (hi - (lo + 1)) + 1 by omega, List.range'_succ]
  rfl

theorem bytesAt_nil (m : Memory) {lo hi : Nat} (h : hi ≤ lo) : bytesAt m lo hi = [] := by
  simp [bytesAt, show hi - lo = 0 by omega]

/-- Two neighbouring ranges join. -/
theorem bytesAt_append (m : Memory) {lo mid hi : Nat} (h₁ : lo ≤ mid) (h₂ : mid ≤ hi) :
    bytesAt m lo mid ++ bytesAt m mid hi = bytesAt m lo hi := by
  apply List.ext_getElem?
  intro k
  rw [bytesAt_getElem?, List.getElem?_append, bytesAt_length]
  split
  · rw [bytesAt_getElem?, if_pos (by omega), if_pos (by omega)]
  · rw [bytesAt_getElem?, show mid + (k - (mid - lo)) = lo + k by omega]

theorem pairAt_iff {m : Memory} {i : Nat} (h₀ : Memory.written m i) (h₁ : Memory.written m (i + 1)) :
    pairAt m i = true ↔ byteAt m i = Config.sync ∧ byteAt m (i + 1) = Config.sync := by
  simp [pairAt, get?_eq_byteAt h₀, get?_eq_byteAt h₁, Config.sync]

/-- A pair starts in a written range of a buffer where the buffer holds one. -/
theorem pairStarts_bytesAt {m : Memory} {lo hi k : Nat}
    (hw : ∀ i, lo ≤ i → i < hi → Memory.written m i) :
    pairStarts (bytesAt m lo hi) k ↔ lo + k + 1 < hi ∧ pairAt m (lo + k) = true := by
  simp only [pairStarts, bytesAt_getElem?]
  by_cases h : lo + k + 1 < hi
  · rw [if_pos (by omega), if_pos (by omega), pairAt_iff (hw _ (by omega) (by omega)) (hw _ (by omega) (by omega))]
    rw [and_iff_right h, Option.some.injEq, Option.some.injEq, Nat.add_assoc]
  · rw [if_neg (show ¬ lo + (k + 1) < hi by omega)]; simp [h]

/-! ## Counting pairs -/

theorem countP_range_split (Q : Nat → Bool) (lo n : Nat) :
    ((List.range n).countP fun i => decide (lo ≤ i) && Q i) =
      (if lo < n ∧ Q lo = true then 1 else 0) + (List.range n).countP fun i => decide (lo + 1 ≤ i) && Q i := by
  induction n with
  | zero => simp
  | succ n ih =>
    rw [List.range_succ, List.countP_append, List.countP_append, ih]
    simp only [List.countP_cons, List.countP_nil]
    rcases Nat.lt_trichotomy lo n with h | h | h
    · have h1 : decide (lo ≤ n) = true := by simp; omega
      have h2 : decide (lo + 1 ≤ n) = true := by simp; omega
      simp only [h1, h2, Bool.true_and, h, true_and, show lo < n + 1 by omega]; omega
    · subst h; simp
      cases Q lo <;> simp [Nat.add_comm]
    · have h1 : decide (lo ≤ n) = false := by simp; omega
      have h2 : decide (lo + 1 ≤ n) = false := by simp; omega
      simp only [h1, h2, Bool.false_and, show ¬ lo < n by omega, show ¬ lo < n + 1 by omega, false_and]; simp

/-- The pairs of a range: the one at its first index, if there is one, and those further on. -/
theorem pairsIn_cons (m : Memory) {lo hi : Nat} (h : lo + 1 < hi) :
    pairsIn m lo hi = (if pairAt m lo = true then 1 else 0) + pairsIn m (lo + 1) hi := by
  simp only [pairsIn, ← List.countP_eq_length_filter, Bool.and_assoc]
  rw [countP_range_split]
  simp [h, show lo < hi by omega]

theorem pairsIn_nil (m : Memory) {lo hi : Nat} (h : hi ≤ lo + 1) : pairsIn m lo hi = 0 := by
  simp only [pairsIn, List.length_eq_zero_iff, List.filter_eq_nil_iff, Bool.and_eq_true, decide_eq_true_eq]
  omega

/-- The count over a written range of a buffer is the number of indices at which a pair starts in it. -/
theorem esc_bytesAt {m : Memory} {lo hi : Nat} (hw : ∀ i, lo ≤ i → i < hi → Memory.written m i) :
    esc (bytesAt m lo hi) = pairsIn m lo hi := by
  obtain ⟨n, hn⟩ : ∃ n, n = hi - lo := ⟨_, rfl⟩
  induction n generalizing lo with
  | zero => rw [bytesAt_nil m (by omega), pairsIn_nil m (by omega)]; rfl
  | succ n ih =>
    by_cases h : lo + 1 < hi
    · have := ih (lo := lo + 1) (fun i h1 h2 => hw i (by omega) h2) (by omega)
      rw [pairsIn_cons m h, ← this, bytesAt_cons m (show lo < hi by omega), bytesAt_cons m h]
      simp only [esc]
      congr 1
      simp only [pairAt_iff (hw lo (by omega) (by omega)) (hw (lo + 1) (by omega) h)]
    · rw [pairsIn_nil m (by omega), bytesAt_cons m (show lo < hi by omega), bytesAt_nil m (by omega)]; rfl

/-- A sequence holds fewer pairs than bytes. -/
theorem esc_le (S : List Byte) : esc S ≤ S.length - 1 := by
  induction S with
  | nil => simp [esc]
  | cons a S ih =>
    cases S with
    | nil => simp [esc]
    | cons b S => simp only [esc, List.length_cons] at *; split <;> omega

/-! ## The frame -/

@[simp] theorem frameBody_length (addr : Word) (opcode h : Byte) (P : List Byte) :
    (frameBody addr opcode h P).length = 10 + P.length := by
  simp [frameBody]; omega

@[simp] theorem closeFrame_length (body : List Byte) : (closeFrame body).length = body.length + 2 := by
  simp [closeFrame]

end Sys2Proof.Machine
end

