-- ==== Sys2Proof/Laws/Codec.lean ====
section
/-! SUPPORT. What ENCODE and DECODE can answer: one inversion lemma for each of their shared parts. -/

namespace Sys2Proof.Machine

/-! ## ENCODE -/

/-- A frame that fits is written, whatever its bytes. -/
theorem encodeWrites_fits {s : State} {h : Byte} {P : List Byte} (hf : 12 + P.length ≤ 8192) :
    encodeWrites s h P = .next ({ s with
      obuf := Memory.setAll s.obuf 0 (closeFrame (frameBody s.hdrAddr (opcodeField s.hdrOp) h P)),
      olen := BitVec.ofNat 16 (12 + P.length), flen := BitVec.ofNat 16 (12 + P.length),
      fcrc := frameCrc (frameBody s.hdrAddr (opcodeField s.hdrOp) h P),
      result := h.setWidth 16 }.report .ok) := by
  have hw := memWrite_ok (m := s.obuf) (i := 0) (S := closeFrame (frameBody s.hdrAddr (opcodeField s.hdrOp) h P))
    (by simp only [Config.bufLen, closeFrame_length, frameBody_length]; omega)
  simp only [encodeWrites, hw, Config.hdrLen]

/-- Everything ENCODE can do once its payload is read. -/
theorem encodePayload_cases (s : State) (P : List Byte) :
    (presetField s.hdrOp ≠ 0#4 ∧ encodePayload s P = .next (encodeFails .encSubopRange s)) ∨
    (presetField s.hdrOp = 0#4 ∧ 8192 < 12 + P.length ∧
      encodePayload s P = .next (encodeFails .encTooLong s)) ∨
    (presetField s.hdrOp = 0#4 ∧ 12 + P.length ≤ 8192 ∧ 7 < esc P ∧
      encodePayload s P = .next (encodeFails .encEscOverflow { s with result := BitVec.ofNat 16 (esc P) })) ∨
    (presetField s.hdrOp = 0#4 ∧ 12 + P.length ≤ 8192 ∧ esc P ≤ 7 ∧
      encodePayload s P = encodeWrites s
        (finalHeader s.hdrAddr (opcodeField s.hdrOp) (headerByte (esc P) (subField s.hdrOp)) P) P) := by
  by_cases h0 : presetField s.hdrOp = 0#4
  · by_cases h1 : 8192 < 12 + P.length
    · exact .inr (.inl ⟨h0, h1, by simp [encodePayload, h0, h1, Config.maxFrameLen, Config.hdrLen]⟩)
    · by_cases h2 : 7 < esc P
      · exact .inr (.inr (.inl ⟨h0, by omega, h2,
          by simp [encodePayload, h0, h1, h2, Config.maxFrameLen, Config.hdrLen, Config.escMax]⟩))
      · exact .inr (.inr (.inr ⟨h0, by omega, by omega,
          by simp [encodePayload, h0, h1, h2, Config.maxFrameLen, Config.hdrLen, Config.escMax]⟩))
  · exact .inl ⟨h0, by simp [encodePayload, h0]⟩

/-! ## DECODE -/

/-- The window from a candidate on. -/
abbrev candidateBytes (s : State) (p : Nat) : List Byte := bytesAt s.ibuf p s.ilen.toNat

theorem candByte_bytesAt {m : Memory} {p hi k : Nat} (h : p + k < hi) :
    candByte (bytesAt m p hi) k = byteAt m (p + k) := by
  simp [candByte, List.getD_eq_getElem?_getD, bytesAt_getElem?, h]

theorem candLen_bytesAt {m : Memory} {p hi : Nat} (h : p + 12 ≤ hi) :
    (candLen (bytesAt m p hi)).toNat = be16At m (p + 2) := by
  rw [candLen, be16_toNat, candByte_bytesAt (by omega), candByte_bytesAt (by omega), be16At]

/-- A DECODE over a readable window searches it, and examines one candidate. -/
theorem execDecode_readable {s : State} (h : RangeReadable s) :
    ((∀ i, s.start.toNat ≤ i → i + 1 < s.ilen.toNat → pairAt s.ibuf i = false) ∧
      execDecode s = .next (decodeNoSync s (bytesAt s.ibuf s.start.toNat s.ilen.toNat))) ∨
    ∃ p, FirstPair s p ∧
      execDecode s = decodeCandidate { s with fpos := BitVec.ofNat 16 p } p (candidateBytes s p) := by
  have hx : execDecode s = decodeWindow s (bytesAt s.ibuf s.start.toNat s.ilen.toNat) := withRange_readable h
  rw [hx]
  unfold decodeWindow
  split
  · rename_i hn
    refine .inl ⟨fun i h1 h2 => ?_, rfl⟩
    have := findSync_eq_none.1 hn (i - s.start.toNat)
    rw [pairStarts_bytesAt h.2, show s.start.toNat + (i - s.start.toNat) = i by omega] at this
    simpa [h2] using this
  · rename_i q hq
    obtain ⟨h1, h2⟩ := findSync_eq_some.1 hq
    rw [pairStarts_bytesAt h.2] at h1
    refine .inr ⟨s.start.toNat + q, ⟨by omega, h1.1, h1.2, fun i hi1 hi2 => ?_⟩, by rw [bytesAt_drop]⟩
    have := h2 (i - s.start.toNat) (by omega)
    rw [pairStarts_bytesAt h.2, show s.start.toNat + (i - s.start.toNat) = i by omega] at this
    simpa [show i + 1 < s.ilen.toNat by have := h1.1; omega] using this

/-- The first sync pair of a window is unique. -/
theorem FirstPair.unique {s : State} {p q : Nat} (hp : FirstPair s p) (hq : FirstPair s q) : p = q := by
  rcases Nat.lt_trichotomy p q with h | h | h
  · have := hq.least p hp.fromStart h; rw [hp.pair] at this; cases this
  · exact h
  · have := hp.least q hq.fromStart h; rw [hq.pair] at this; cases this

/-- A DECODE whose window has a first sync pair examines that candidate. -/
theorem execDecode_first {s : State} {p : Nat} (h : RangeReadable s) (hp : FirstPair s p) :
    execDecode s = decodeCandidate { s with fpos := BitVec.ofNat 16 p } p (candidateBytes s p) := by
  rcases execDecode_readable h with ⟨hn, -⟩ | ⟨q, hq, hx⟩
  · have := hn p hp.fromStart hp.inWindow; rw [hp.pair] at this; cases this
  · rwa [hp.unique hq]

/-- Everything the checks of a candidate can do (41_escape_codec.md R113 to R117). -/
theorem decodeFramed_cases (s : State) (p : Nat) (C : List Byte) :
    ((candLen C).toNat < 12 ∧ decodeFramed s p C = .next (decodeRejects .decLenShort (p + 1) s)) ∨
    (8192 < (candLen C).toNat ∧ decodeFramed s p C = .next (decodeRejects .decLenOversize (p + 1) s)) ∨
    (12 ≤ (candLen C).toNat ∧ (candLen C).toNat ≤ 8192 ∧
      ((escField (candHeader C) < esc (candPayload C) ∧
          decodeFramed s p C = .next (decodeRejects .decEscOverrun (p + 1) s)) ∨
       (esc (candPayload C) ≤ escField (candHeader C) ∧ C.length < (candLen C).toNat ∧
          decodeFramed s p C = .next (decodeRejects .decIncomplete p s)) ∨
       (esc (candPayload C) < escField (candHeader C) ∧ (candLen C).toNat ≤ C.length ∧
          decodeFramed s p C = .next (decodeRejects .decEscMismatch (p + 1) s)) ∨
       (esc (candPayload C) = escField (candHeader C) ∧ (candLen C).toNat ≤ C.length ∧
          frameCrc (C.take ((candLen C).toNat - 2)) ≠ candCrc C ∧
          decodeFramed s p C = .next (decodeRejects .decCrc (p + 1) s)) ∨
       (esc (candPayload C) = escField (candHeader C) ∧ (candLen C).toNat ≤ C.length ∧
          frameCrc (C.take ((candLen C).toNat - 2)) = candCrc C ∧
          decodeFramed s p C = decodeAccepts s p C))) := by
  have hx := decodeFramed.eq_def s p C
  simp only [Config.maxFrameLen, Config.hdrLen] at hx
  by_cases h1 : (candLen C).toNat < 12
  · exact .inl ⟨h1, by rw [hx, if_pos h1]⟩
  rw [if_neg h1] at hx
  by_cases h2 : 8192 < (candLen C).toNat
  · exact .inr (.inl ⟨h2, by rw [hx, if_pos h2]⟩)
  rw [if_neg h2] at hx
  refine .inr (.inr ⟨by omega, by omega, ?_⟩)
  by_cases h3 : escField (candHeader C) < esc (candPayload C)
  · exact .inl ⟨h3, by rw [hx, if_pos h3]⟩
  rw [if_neg h3] at hx
  by_cases h4 : C.length < (candLen C).toNat
  · exact .inr (.inl ⟨by omega, h4, by rw [hx, if_pos h4]⟩)
  rw [if_neg h4] at hx
  by_cases h5 : esc (candPayload C) < escField (candHeader C)
  · exact .inr (.inr (.inl ⟨h5, by omega, by rw [hx, if_pos h5]⟩))
  rw [if_neg h5] at hx
  by_cases h6 : frameCrc (C.take ((candLen C).toNat - 2)) = candCrc C
  · exact .inr (.inr (.inr (.inr ⟨by omega, by omega, h6, by rw [hx, if_neg (not_not.2 h6)]⟩)))
  · exact .inr (.inr (.inr (.inl ⟨by omega, by omega, h6, by rw [hx, if_pos h6]⟩)))

theorem candPayload_length_le (C : List Byte) : (candPayload C).length ≤ (candLen C).toNat - 12 := by
  simp [candPayload, Config.hdrLen]

/-- An accept writes: the payload always fits in OBUF. -/
theorem decodeAccepts_fits {s : State} {p : Nat} {C : List Byte} (h : (candLen C).toNat ≤ 8192) :
    decodeAccepts s p C = .next ({ s with
      hdrAddr := be16 (candByte C 4) (candByte C 5) ++ be16 (candByte C 6) (candByte C 7),
      hdrOp := be16 (candByte C 8) (candHeader C), fcrc := candCrc C,
      obuf := Memory.setAll s.obuf 0 (candPayload C),
      olen := BitVec.ofNat 16 ((candLen C).toNat - 12),
      next := BitVec.ofNat 16 (p + (candLen C).toNat) }.report .ok) := by
  have := candPayload_length_le C
  unfold decodeAccepts
  rw [memWrite_ok (by simp only [Config.bufLen]; omega)]

/-- A candidate without its 12-byte envelope in the window is incomplete; any other goes to the checks. -/
theorem decodeCandidate_cases (s : State) (p : Nat) (C : List Byte) :
    (C.length < 12 ∧ decodeCandidate s p C = .next (decodeRejects .decIncomplete p { s with flen := 0#16 })) ∨
    (12 ≤ C.length ∧ decodeCandidate s p C = decodeFramed { s with flen := candLen C } p C) := by
  by_cases h : C.length < 12
  · exact .inl ⟨h, by simp [decodeCandidate, Config.hdrLen, h]⟩
  · exact .inr ⟨by omega, by simp [decodeCandidate, Config.hdrLen, h]⟩

end Sys2Proof.Machine
end

