-- ==== Sys2Proof/Laws/Decode.lean ====
section
/-! SUPPORT. The command word as a number, and what the decoder's parts answer. -/

namespace Sys2Proof

theorem opcField_toNat (w : Word) : (opcField w).toNat = w.toNat % 256 := by
  simp [opcField, BitVec.extractLsb'_toNat]

theorem immField_toNat (w : Word) : (immField w).toNat = w.toNat / 65536 := by
  have := w.isLt
  simp only [immField, BitVec.extractLsb'_toNat, Nat.shiftRight_eq_div_pow]
  omega

theorem immLowField_toNat (w : Word) : (immLowField w).toNat = w.toNat / 65536 % 256 := by
  simp only [immLowField, BitVec.extractLsb'_toNat, Nat.shiftRight_eq_div_pow]

/-- A command word as a number: IMM above, RSV zero, OPC below. -/
theorem commandWord_toNat (imm : Half) (opc : Byte) : (commandWord imm opc).toNat = imm.toNat * 65536 + opc.toNat := by
  have h := imm.isLt
  have h' := opc.isLt
  simp only [commandWord, BitVec.toNat_append]
  rw [← Nat.shiftLeft_add_eq_or_of_lt (by exact opc.isLt), ← Nat.shiftLeft_add_eq_or_of_lt (by exact (0#8).isLt)]
  simp only [Nat.shiftLeft_eq, BitVec.toNat_ofNat]
  omega

/-- A word is accepted exactly when its code is legal and its must-be-zero bits are 0, and then as its code says. -/
theorem decode_eq_command {w : Word} {i : Instr} :
    decode w = .command i ↔ commandOf w = some i ∧ w &&& mbzMask (opcField w) = 0#32 := by
  unfold decode
  cases commandOf w with
  | none => simp
  | some j => simp only [ne_eq, ite_not]; split <;> simp_all

end Sys2Proof
end

