-- ==== Sys2Proof/Laws/PerInstr.lean ====
section
/-! SUPPORT. What holds of every instruction as syntax, one lemma per constructor.
`EncodedWordFits`: the word of an instruction fits the row of spec/opcode_table.json with its mnemonic, and no other row. -/

namespace Sys2Proof

/-- A mask given by its parts acts on the parts of a command word. -/
theorem commandWord_and (imm a : Half) (opc b c : Byte) :
    commandWord imm opc &&& (a ++ b ++ c) = (imm &&& a) ++ (0#8 &&& b) ++ (opc &&& c) := by
  rw [commandWord, BitVec.and_append, BitVec.and_append]

theorem byte_and_ff (b : Byte) : b &&& 0xFF#8 = b := by
  rw [show (0xFF#8 : Byte) = BitVec.allOnes 8 by decide, BitVec.and_allOnes]

/-- A row whose mask covers OPC fits no word with another OPC. -/
theorem not_fits_of_opc {imm : Half} {opc : Byte} {r : OpcodeRow} (hm : r.mask.setWidth 8 = 0xFF#8)
    (hv : r.value.setWidth 8 ≠ opc) : r.fits (commandWord imm opc) = false := by
  rw [OpcodeRow.fits, beq_eq_false_iff_ne]
  intro h
  apply hv
  rw [← h, BitVec.setWidth_and, hm, byte_and_ff, commandWord, BitVec.setWidth_append]
  simp

/-- The row of CRC_INIT requires nothing of IMM. -/
theorem fits_seed (seed : Half) (opc : Byte) :
    OpcodeRow.fits ⟨"CRC_INIT", 0x0000FFFF#32, 0#16 ++ 0#8 ++ opc⟩ (commandWord seed opc) = true := by
  rw [OpcodeRow.fits, show 0x0000FFFF#32 = 0#16 ++ 0xFF#8 ++ 0xFF#8 by decide, commandWord_and, BitVec.and_zero, byte_and_ff,
    byte_and_ff]
  exact beq_self_eq_true _

/-- The rows of CRC_BYTE and CRC_TAB require nothing of the low half of IMM. -/
theorem fits_low (name : String) (b opc : Byte) :
    OpcodeRow.fits ⟨name, 0xFF00FFFF#32, 0#16 ++ 0#8 ++ opc⟩ (commandWord (0#8 ++ b) opc) = true := by
  rw [OpcodeRow.fits, show 0xFF00FFFF#32 = (0xFF#8 ++ 0#8 : Half) ++ 0xFF#8 ++ 0xFF#8 by decide, commandWord_and,
    BitVec.and_append, BitVec.and_zero, byte_and_ff, byte_and_ff]
  exact beq_self_eq_true _

end Sys2Proof

namespace Sys2Proof.Laws.EncodedWordFits

/-- The rows of the opcode table that the instruction's word fits: its own, alone. -/
def Statement (i : Instr) : Prop := (opcodeTable.filter fun r => r.fits (Sys2Proof.encode i)).map (·.mnemonic) = [i.mnemonic]

theorem nop : Statement .nop := by unfold Statement; decide

theorem crcInit (seed : Half) : Statement (.crcInit seed) := by
  have h := fits_seed seed 0x01#8
  rw [show (0#16 ++ 0#8 ++ 0x01#8 : Word) = 0x00000001#32 by decide] at h
  simp [Statement, opcodeTable, Sys2Proof.encode, not_fits_of_opc, h, Instr.mnemonic]

theorem crcByte (b : Byte) : Statement (.crcByte b) := by
  have h := fits_low "CRC_BYTE" b 0x02#8
  rw [show (0#16 ++ 0#8 ++ 0x02#8 : Word) = 0x00000002#32 by decide] at h
  simp [Statement, opcodeTable, Sys2Proof.encode, not_fits_of_opc, h, Instr.mnemonic]

theorem crcBuf : Statement .crcBuf := by unfold Statement; decide

theorem crcTab (idx : Byte) : Statement (.crcTab idx) := by
  have h := fits_low "CRC_TAB" idx 0x04#8
  rw [show (0#16 ++ 0#8 ++ 0x04#8 : Word) = 0x00000004#32 by decide] at h
  simp [Statement, opcodeTable, Sys2Proof.encode, not_fits_of_opc, h, Instr.mnemonic]

theorem escCount : Statement .escCount := by unfold Statement; decide

theorem encode : Statement .encode := by unfold Statement; decide

theorem decode : Statement .decode := by unfold Statement; decide

end Sys2Proof.Laws.EncodedWordFits
end

