-- ==== Sys2Proof/Laws/Step.lean ====
section
/-! SUPPORT. What a step and a transaction can do: one inversion lemma each. -/

namespace Sys2Proof.Machine

theorem step_idle {s : State} (h : s.pending = []) : step s = .next s := by
  simp [step, stepPending, h]

theorem step_pending {s : State} {tx : HostTx} {rest : List HostTx} (h : s.pending = tx :: rest) :
    step s = transact tx { s with pending := rest } := by
  simp [step, stepPending, h]

/-- Everything a step can do: nothing when no transaction waits, else the oldest one. -/
theorem step_cases (s : State) :
    (s.pending = [] ∧ step s = .next s) ∨
    ∃ tx rest, s.pending = tx :: rest ∧ step s = transact tx { s with pending := rest } := by
  cases h : s.pending with
  | nil => exact .inl ⟨rfl, step_idle h⟩
  | cons tx rest => exact .inr ⟨tx, rest, rfl, step_pending h⟩

/-- Everything issuing a word can do. -/
theorem issue_cases (w : Word) (s : State) :
    (∃ i, decode w = .command i ∧ issue w s = exec i s) ∨
    (decode w = .illegal ∧ issue w s = .next (s.report .errIllegal)) ∨
    (decode w = .reserved ∧ issue w s = .next (s.report .errReserved)) := by
  cases h : decode w with
  | command i => exact .inl ⟨i, rfl, by simp [issue, h]⟩
  | illegal => exact .inr (.inl ⟨rfl, by simp [issue, h]⟩)
  | reserved => exact .inr (.inr ⟨rfl, by simp [issue, h]⟩)

/-- Everything a transaction can do when it answers a next state. -/
theorem transact_cases {tx : HostTx} {s t : State} (h : transact tx s = .next t) :
    (∃ w, tx = .writeReg (.cmd w) ∧ issue w { s with cmd := w } = .next t) ∨
    (∃ v, tx = .writeReg v ∧ v.reg ≠ .cmd ∧ t = s.writeReg v) ∨
    (∃ r, tx = .readReg r ∧ t = { s with readData := some (.reg (s.readReg r)) }) ∨
    (∃ i b m, tx = .writeByte .ibuf i b ∧ memWrite s.ibuf i [b] = .ok m ∧ t = { s with ibuf := m }) ∨
    (∃ i b, tx = .writeByte .obuf i b ∧ i < Config.bufLen ∧ t = s) ∨
    (∃ buf i S, tx = .readByte buf i ∧ memRead (s.buf buf) i 1 = .ok S ∧
      t = { s with readData := some (.byte buf i (S.getD 0 0#8)) }) ∨
    (tx = .reset ∧ t = s.resetEvent) := by
  cases tx with
  | writeReg v =>
    cases v with
    | cmd w => exact .inl ⟨w, rfl, h⟩
    | _ => cases h; exact .inr (.inl ⟨_, rfl, by simp [RegVal.reg], rfl⟩)
  | readReg r => cases h; exact .inr (.inr (.inl ⟨r, rfl, rfl⟩))
  | writeByte buf i b =>
    cases buf with
    | ibuf =>
      simp only [transact, hostWriteByte] at h
      split at h
      · cases h
      · cases h; exact .inr (.inr (.inr (.inl ⟨i, b, _, rfl, ‹_›, rfl⟩)))
    | obuf =>
      simp only [transact, hostWriteByte, indexExists, decide_eq_true_eq] at h
      split at h
      · cases h; exact .inr (.inr (.inr (.inr (.inl ⟨i, b, rfl, ‹_›, rfl⟩))))
      · cases h
  | readByte buf i =>
    simp only [transact, hostReadByte] at h
    split at h
    · cases h
    · cases h; exact .inr (.inr (.inr (.inr (.inr (.inl ⟨buf, i, _, rfl, ‹_›, rfl⟩)))))
  | reset => cases h; exact .inr (.inr (.inr (.inr (.inr (.inr ⟨rfl, rfl⟩)))))

end Sys2Proof.Machine
end

