-- ==== Sys2Proof/Tests/Slice0.lean ====
section
/-! SUPPORT. Checks of the model against words and values that stand in spec/ (the vectors V<n> of 95_test_vectors.md, the
encodings of 30_encoding.md), one step each, and a witness for the hypotheses of each statement. -/

namespace Sys2Proof.Tests

set_option Elab.async false

open Sys2Proof.Machine

/-! ## Helpers -/

/-- The state of a result that is a next state. -/
def after : Result → State
  | .next t => t
  | .fault _ => State.reset
  | .refused _ => State.reset

/-- The result is a next state. -/
def answers : Result → Bool
  | .next _ => true
  | .fault _ => false
  | .refused _ => false

/-- The fault a result stops on. -/
def stopsOn : Result → Option Fault
  | .next _ => none
  | .fault f => some f
  | .refused _ => none

theorem next_after {r : Result} (h : answers r = true) : r = .next (after r) := by
  cases r with
  | next t => rfl
  | fault f => cases h
  | refused f => cases h

/-- Reset, with bytes in IBUF from index 0 and an input range. -/
def window (S : List Byte) (start ilen : Nat) : State :=
  { State.reset with ibuf := Memory.setAll [] 0 S, start := BitVec.ofNat 16 start, ilen := BitVec.ofNat 16 ilen }

/-- Reset, with a payload in IBUF and a header to encode. -/
def toEncode (S : List Byte) (addr : Word) (op : Half) : State :=
  { window S 0 S.length with hdrAddr := addr, hdrOp := op }

/-- `123456789` (V1). -/
def digits : List Byte := [0x31#8, 0x32#8, 0x33#8, 0x34#8, 0x35#8, 0x36#8, 0x37#8, 0x38#8, 0x39#8]

/-- Frame A (V20). -/
def frameA : List Byte :=
  [0xA5#8, 0xA5#8, 0x00#8, 0x10#8, 0x00#8, 0x01#8, 0x00#8, 0x02#8, 0x04#8, 0x00#8, 0x00#8, 0x01#8, 0x00#8, 0x02#8,
   0x15#8, 0x29#8]

/-- Frame B (V21): no payload. -/
def frameB : List Byte :=
  [0xA5#8, 0xA5#8, 0x00#8, 0x0C#8, 0x00#8, 0x00#8, 0x00#8, 0x05#8, 0x03#8, 0x00#8, 0x33#8, 0x7D#8]

/-- Frame C (V22) with its header byte as given; it is 0x30 in the frame itself. -/
def frameC (h : Byte) : List Byte :=
  [0xA5#8, 0xA5#8, 0x00#8, 0x12#8, 0x00#8, 0x10#8, 0x00#8, 0x01#8, 0x07#8, h, 0xA5#8, 0xA5#8, 0x01#8, 0xA5#8, 0xA5#8,
   0xA5#8, 0xDF#8, 0x8F#8]

/-- The frame of V25: the D flag is set. -/
def frameD : List Byte :=
  [0xA5#8, 0xA5#8, 0x00#8, 0x0C#8, 0xF6#8, 0x09#8, 0x00#8, 0x00#8, 0x03#8, 0x80#8, 0x05#8, 0xA4#8]

/-- A candidate of V33 or V34: twelve bytes with the given declared length. -/
def envelope (hi lo : Byte) : List Byte := [0xA5#8, 0xA5#8, hi, lo] ++ List.replicate 8 0x00#8

/-- A candidate of V38: L = 64, a pair at its end, with the given header byte. -/
def early (h : Byte) : List Byte :=
  [0xA5#8, 0xA5#8, 0x00#8, 0x40#8, 0x00#8, 0x01#8, 0x00#8, 0x02#8, 0x07#8, h, 0xA5#8, 0xA5#8]

/-! ## Words -/

/-- 30_encoding.md R69, bit by bit: IMM, RSV, OPC. -/
theorem test_decode_nop : decode (0b0000000000000000#16 ++ 0b00000000#8 ++ 0b00000000#8) = .command .nop := by decide
theorem test_decode_crcInit :
    decode (0b1010101111001101#16 ++ 0b00000000#8 ++ 0b00000001#8) = .command (.crcInit 0xABCD#16) := by decide
theorem test_decode_crcByte :
    decode (0b0000000000110001#16 ++ 0b00000000#8 ++ 0b00000010#8) = .command (.crcByte 0x31#8) := by decide
theorem test_decode_crcBuf : decode (0b0000000000000000#16 ++ 0b00000000#8 ++ 0b00000011#8) = .command .crcBuf := by decide
theorem test_decode_crcTab :
    decode (0b0000000010100101#16 ++ 0b00000000#8 ++ 0b00000100#8) = .command (.crcTab 0xA5#8) := by decide
theorem test_decode_escCount :
    decode (0b0000000000000000#16 ++ 0b00000000#8 ++ 0b00000101#8) = .command .escCount := by decide
theorem test_decode_encode : decode (0b0000000000000000#16 ++ 0b00000000#8 ++ 0b00000110#8) = .command .encode := by decide
theorem test_decode_decode : decode (0b0000000000000000#16 ++ 0b00000000#8 ++ 0b00000111#8) = .command .decode := by decide

/-- V10: the illegal check comes before the reserved check. -/
theorem test_decode_illegal : decode 0x00000008#32 = .illegal ∧ decode 0xFFFFFFFF#32 = .illegal := by decide
theorem test_decode_reserved :
    decode 0x00000101#32 = .reserved ∧ decode 0x01310002#32 = .reserved ∧ decode 0x80000004#32 = .reserved ∧
    decode 0x00010003#32 = .reserved ∧ decode 0x80000006#32 = .reserved ∧ decode 0x00000100#32 = .reserved := by decide

/-- The smoke test of the word check: one ill-formed word for each way to be ill-formed (a code outside the table, a bit of
RSV, an immediate where the command takes none, a high half of IMM), and a well-formed neighbour. -/
theorem test_word_opc : wordWellFormed 0x00000008#32 = false ∧ wordWellFormed 0x00000007#32 = true := by decide
theorem test_word_rsv : wordWellFormed 0x00000105#32 = false ∧ wordWellFormed 0xABCD0101#32 = false := by decide
theorem test_word_imm : wordWellFormed 0x00010003#32 = false ∧ wordWellFormed 0xABCD0001#32 = true := by decide
theorem test_word_high : wordWellFormed 0x01310002#32 = false ∧ wordWellFormed 0x00310002#32 = true := by decide
/-- The smoke test of the index check (20_memory.md R40). -/
theorem test_index : indexExists 8192 = false ∧ indexExists 8191 = true := by decide
/-- Every instruction is well formed, and its word is. -/
theorem test_wellFormed : (Instr.crcByte 0xFF#8).wellFormed = true ∧ wordWellFormed (encode (.crcByte 0xFF#8)) = true := by decide

theorem test_decodeTableWord :
    decodeTableWord 32 0x00310002 = some (.crcByte 0x31#8) ∧ decodeTableWord 32 0x00000100 = none := by decide

/-- A placed word is the next instruction to run (V4). -/
theorem test_withFetchWord : (after (step (State.reset.withFetchWord 32 0x00310002))).crc = 0x947E#16 := by decide +kernel

/-! ## One step of each command -/

/-- 41_escape_codec.md R100's example. -/
theorem test_nop : (after (exec .nop { State.reset with status := 0x12#8 })).status = 0x00#8 := by decide
/-- V3. -/
theorem test_crcInit : (after (exec (.crcInit 0xABCD#16) State.reset)).crc = 0xABCD#16 := by decide
/-- V4. -/
theorem test_crcByte : (after (exec (.crcByte 0x31#8) State.reset)).crc = 0x947E#16 := by decide +kernel
theorem test_crcByte_ff : (after (exec (.crcByte 0xFF#8) State.reset)).crc = 0x00FF#16 := by decide +kernel
/-- V5. -/
theorem test_crcBuf : (after (exec .crcBuf (window digits 0 9))).crc = 0x4B37#16 := by decide +kernel
theorem test_crcBuf_part : (after (exec .crcBuf { window digits 5 9 with crc := 0xA471#16 })).crc = 0x4B37#16 := by
  decide +kernel
/-- V6. -/
theorem test_crcTab : (after (exec (.crcTab 0xA5#8) State.reset)).result = 0x7BC0#16 := by decide +kernel
/-- V16: the bytes beside the range are not looked at. -/
theorem test_escCount :
    (after (exec .escCount (window (List.replicate 4 0xA5#8) 1 3))).result = 1#16 := by decide +kernel
/-- V15: not clamped. -/
theorem test_escCount_nine :
    (after (exec .escCount (window (List.replicate 9 0xA5#8) 0 9))).result = 8#16 := by decide +kernel
/-- V22. -/
theorem test_encode :
    Memory.getAll (after (exec .encode
      (toEncode [0xA5#8, 0xA5#8, 0x01#8, 0xA5#8, 0xA5#8, 0xA5#8] 0x00100001#32 0x0700#16))).obuf 0 18
      = some (frameC 0x30#8) := by decide +kernel
/-- V25: the D flag is set and the CRC computed again. -/
theorem test_encode_dFlag :
    Memory.getAll (after (exec .encode (toEncode [] 0xF6090000#32 0x0300#16))).obuf 0 12 = some frameD := by decide +kernel
/-- V30, its second row. -/
theorem test_decode :
    let t := after (exec .decode (window ([0x00#8, 0xA5#8, 0x13#8] ++ frameA ++ frameC 0x30#8) 19 37))
    t.status = 0x00#8 ∧ t.fpos = 19#16 ∧ t.next = 37#16 ∧ t.flen = 18#16 ∧ t.hdrAddr = 0x00100001#32 ∧
    t.hdrOp = 0x0730#16 ∧ t.fcrc = 0xDF8F#16 ∧ t.olen = 6#16 ∧
    Memory.getAll t.obuf 0 6 = some [0xA5#8, 0xA5#8, 0x01#8, 0xA5#8, 0xA5#8, 0xA5#8] := by decide +kernel
/-- V34: a candidate made by a stray sync byte is rejected, not skipped over. -/
theorem test_decode_stray :
    let t := after (exec .decode (window (0xA5#8 :: frameA) 0 17))
    t.status = 0x31#8 ∧ t.fpos = 0#16 ∧ t.next = 1#16 ∧ t.flen = 0xA500#16 := by decide +kernel

/-! ## The host's side -/

/-- V10: a reserved word only reports (its second last row: OLEN stays). -/
theorem test_reserved_encode :
    after (transact (.writeReg (.cmd 0x80000006#32)) { State.reset with olen := 5#16 }) =
      { State.reset with cmd := 0x80000006#32, status := 0x02#8, olen := 5#16 } := by decide +kernel
/-- V11. -/
theorem test_index_fault :
    stopsOn (transact (.writeByte .ibuf 8192 0x00#8) State.reset) = some .indexRange ∧
    stopsOn (transact (.readByte .obuf 8192) State.reset) = some .indexRange := by decide
theorem test_unwritten_fault :
    stopsOn (transact (.readByte .obuf 0) (after (transact (.writeByte .obuf 0 0x12#8) State.reset))) =
      some .unwrittenRead := by decide
/-- V5, its last row. -/
theorem test_command_unwritten : stopsOn (exec .crcBuf (window digits 0 10)) = some .unwrittenRead := by decide +kernel
/-- 10_state.md R11. -/
theorem test_reset_event :
    after (transact .reset (window digits 3 9)) = State.reset := by decide

/-! ## Checks that give the hypotheses of the statements -/

/-- A readable input range, as a check. -/
def readable (s : State) : Bool := rangeOk s && (Memory.getAll s.ibuf s.start.toNat (s.ilen.toNat - s.start.toNat)).isSome

theorem readable_of {s : State} (h : readable s = true) : RangeReadable s := by
  simp only [readable, Bool.and_eq_true] at h
  refine ⟨(rangeOk_iff s).1 h.1, fun i h1 h2 => ?_⟩
  obtain ⟨S, hS⟩ := Option.isSome_iff_exists.1 h.2
  obtain ⟨hl, hk⟩ := Memory.getAll_eq_some.1 hS
  have := hk (i - s.start.toNat) (by omega)
  rw [show s.start.toNat + (i - s.start.toNat) = i by omega, List.getElem?_eq_getElem (by omega)] at this
  exact ⟨_, this⟩

theorem invalid_of {s : State} (h : rangeOk s = false) : ¬ RangeValid s := by
  rw [← rangeOk_iff, h]; simp

theorem valid_of {s : State} (h : rangeOk s = true) : RangeValid s := (rangeOk_iff s).1 h

theorem unwritten_of {m : Memory} {i : Nat} (h : Memory.get? m i = none) : ¬ Memory.written m i := not_written.2 h

theorem unreadable_of {s : State} {i : Nat} (h1 : s.start.toNat ≤ i) (h2 : i < s.ilen.toNat)
    (h3 : Memory.get? s.ibuf i = none) : ¬ RangeReadable s := fun h => unwritten_of h3 (h.2 i h1 h2)

/-- The first sync pair of a window, as a check. -/
def firstAt (s : State) (p : Nat) : Bool :=
  decide (s.start.toNat ≤ p) && decide (p + 1 < s.ilen.toNat) && pairAt s.ibuf p &&
    (List.range p).all fun i => decide (i < s.start.toNat) || !pairAt s.ibuf i

theorem first_of {s : State} {p : Nat} (h : firstAt s p = true) : FirstPair s p := by
  simp only [firstAt, Bool.and_eq_true, decide_eq_true_eq, List.all_eq_true, List.mem_range, Bool.or_eq_true,
    Bool.not_eq_true'] at h
  obtain ⟨⟨⟨h1, h2⟩, h3⟩, h4⟩ := h
  refine ⟨h1, h2, h3, fun i h5 h6 => ?_⟩
  rcases h4 i h6 with h | h
  · omega
  · exact h

theorem candidate_of {s : State} {p len : Nat}
    (h : (readable s && firstAt s p && decide (p + 12 ≤ s.ilen.toNat) && decide (len = be16At s.ibuf (p + 2))) = true) :
    Candidate s p len := by
  simp only [Bool.and_eq_true, decide_eq_true_eq] at h
  exact ⟨readable_of h.1.1.1, first_of h.1.1.2, h.1.2, h.2⟩

theorem fits_of {s : State}
    (h : (readable s && decide (s.hdrOp.toNat / 16 % 16 = 0) && decide (12 + rangeLength s ≤ 8192) &&
      decide (rangePairs s ≤ 7)) = true) : EncodeFits s := by
  simp only [Bool.and_eq_true, decide_eq_true_eq] at h
  exact ⟨readable_of h.1.1.1, h.1.1.2, h.1.2, h.2⟩

/-- `n` zero bytes from an index on. -/
def zeros : Nat → Nat → Memory
  | _, 0 => []
  | a, n + 1 => (a, 0x00#8) :: zeros (a + 1) n

theorem zeros_get? (a n i : Nat) : Memory.get? (zeros a n) i = if a ≤ i ∧ i < a + n then some 0x00#8 else none := by
  induction n generalizing a with
  | zero => simp only [zeros, Memory.get?]; rw [if_neg (by omega)]
  | succ n ih =>
    simp only [zeros, Memory.get?, ih]
    by_cases h : a = i
    · rw [if_pos h, if_pos (by omega)]
    · rw [if_neg h]
      by_cases h2 : a + 1 ≤ i ∧ i < a + 1 + n
      · rw [if_pos h2, if_pos (by omega)]
      · rw [if_neg h2, if_neg (by omega)]

theorem zeros_pairs (a n lo hi : Nat) : pairsIn (zeros a n) lo hi = 0 := by
  have hp : ∀ i, pairAt (zeros a n) i = false := fun i => by
    rw [pairAt, zeros_get?]; split <;> simp
  simp [pairsIn, hp]

/-- V29: the state with `n` zero bytes of payload. -/
def longPayload (n : Nat) : State :=
  { State.reset with ibuf := zeros 0 n, ilen := BitVec.ofNat 16 n, hdrAddr := 0x00010002#32, hdrOp := 0x0602#16 }

theorem longPayload_readable {n : Nat} (h : n ≤ 8192) : RangeReadable (longPayload n) := by
  have hl : (longPayload n).ilen.toNat = n := by simp only [longPayload, BitVec.toNat_ofNat]; omega
  refine ⟨⟨Nat.zero_le _, by rw [hl]; exact h⟩, fun i _ hi => ⟨0x00#8, ?_⟩⟩
  rw [hl] at hi
  simp only [longPayload, zeros_get?]; rw [if_pos (by omega)]

theorem longPayload_length {n : Nat} (h : n ≤ 8192) : rangeLength (longPayload n) = n := by
  simp only [rangeLength, longPayload, BitVec.toNat_ofNat, State.reset]; omega

/-! ## Witnesses: states and operands that meet the hypotheses of each statement

One theorem for each clause, at a boundary value of its range where it has one. The statement is named in the theorem. -/

theorem witness_StepRunsDecodedCommand : ∃ (s : State) (w : Word) (rest : List HostTx) (i : Instr),
    s.pending = .writeReg (.cmd w) :: rest ∧ i.wellFormed = true ∧ decode w = .command i ∧ w = encode i :=
  ⟨{ State.reset with pending := [.writeReg (.cmd 0x00000007#32), .reset] }, 0x00000007#32, [.reset], .decode, by decide⟩

theorem witness_OneTransactionPerStep : ∃ s t : State, s.pending ≠ [] ∧ step s = .next t ∧ t.readData ≠ s.readData :=
  ⟨{ State.reset with pending := [.readReg .crc, .reset] }, _, by decide, rfl, by decide⟩

theorem witness_IllegalAndReserved : ∃ w₀ w₁ w₂ w₃ w₄ : Word,
    8 ≤ w₀.toNat % 256 ∧ (w₁.toNat % 256 = 1 ∧ w₁ &&& 0x0000FF00#32 ≠ 0#32) ∧
    (w₂.toNat % 256 = 2 ∧ w₂ &&& 0xFF00FF00#32 ≠ 0#32) ∧ (w₃.toNat % 256 = 4 ∧ w₃ &&& 0xFF00FF00#32 ≠ 0#32) ∧
    w₄.toNat % 256 = 7 ∧ w₄ &&& 0xFFFFFF00#32 ≠ 0#32 :=
  ⟨0x00000008#32, 0x00008001#32, 0x01000002#32, 0x80000004#32, 0x00000107#32, by decide⟩

theorem witness_HostWrites : ∃ (v : RegVal) (i : Nat),
    v.reg ∈ [Reg.status, .crc, .olen, .fpos, .next, .flen, .fcrc, .result] ∧ i < 8192 :=
  ⟨.status 0xFF#8, 8191, by decide⟩

theorem witness_HostReadsHaveNoSideEffect_reg : ∃ s t : State, transact (.readReg .cmd) s = .next t :=
  ⟨State.reset, _, rfl⟩
theorem witness_HostReadsHaveNoSideEffect_byte : ∃ s t : State, transact (.readByte .ibuf 8191) s = .next t :=
  ⟨{ State.reset with ibuf := [(8191, 0xA5#8)] }, _, rfl⟩
theorem witness_HostReadsHaveNoSideEffect_write : ∃ s t : State, transact (.writeByte .ibuf 8191 0xA5#8) s = .next t :=
  ⟨State.reset, _, rfl⟩

theorem witness_HostReadReturns : ∃ s : State,
    Memory.get? s.ibuf 8191 = some 0xA5#8 ∧ Memory.get? s.obuf 0 = some 0x12#8 :=
  ⟨{ State.reset with ibuf := [(8191, 0xA5#8)], obuf := [(0, 0x12#8)] }, by decide⟩

theorem witness_UnwrittenReadsFault_command : ∃ (s : State) (a : Nat), usesRange .decode = true ∧ RangeValid s ∧
    s.start.toNat ≤ a ∧ a < s.ilen.toNat ∧ ¬ Memory.written s.ibuf a :=
  ⟨window digits 0 8192, 8191, by decide, valid_of (by decide +kernel), by decide +kernel, by decide +kernel,
    unwritten_of (by decide +kernel)⟩
theorem witness_UnwrittenReadsFault_host : ∃ (s : State) (a : Nat), a < 8192 ∧ ¬ Memory.written (s.buf .obuf) a :=
  ⟨State.reset, 8191, by decide, unwritten_of rfl⟩

theorem witness_HostBufferIndexChecks : ∃ i j : Nat, 8192 ≤ i ∧ j < 8192 := ⟨8192, 8191, by decide⟩

theorem witness_ResetEventAndWrittenMarks : ∃ (s t : State) (tx : HostTx), tx ≠ .reset ∧ transact tx s = .next t ∧
    Memory.written s.ibuf 0 ∧ Memory.written s.obuf 0 :=
  ⟨{ State.reset with ibuf := [(0, 0x01#8)], obuf := [(0, 0x02#8)] }, _, .writeByte .ibuf 0 0x03#8, by decide, rfl,
    ⟨0x01#8, rfl⟩, ⟨0x02#8, rfl⟩⟩

/-- The three cases of every statement about a command over the input range: two bad ranges, an unwritten byte, readable
ranges (an empty one at the end of the buffer among them). CrcBufFoldsRange, EscCountCountsPairs, EncodeBuildsFrame,
DecodeWithoutAcceptKeepsOutputs, CommandsStopOnlyOnUnwrittenReads. -/
theorem witness_range_bad_order : ∃ s : State, ¬ RangeValid s := ⟨window digits 5 4, invalid_of (by decide +kernel)⟩
theorem witness_range_bad_end : ∃ s : State, ¬ RangeValid s := ⟨window digits 0 8193, invalid_of (by decide +kernel)⟩
theorem witness_range_unwritten : ∃ s : State, RangeValid s ∧ ¬ RangeReadable s :=
  ⟨window digits 0 10, valid_of (by decide +kernel), unreadable_of (i := 9) (by decide) (by decide) (by decide +kernel)⟩
theorem witness_range_readable : ∃ s : State, RangeReadable s ∧ s.start.toNat < s.ilen.toNat :=
  ⟨window digits 0 9, readable_of (by decide +kernel), by decide⟩
theorem witness_range_empty : ∃ s : State, RangeReadable s ∧ s.start = 8192#16 :=
  ⟨window [] 8192 8192, readable_of (by decide +kernel), by decide⟩

theorem witness_CrcBufSplits : ∃ (s t u : State) (j : Half), RangeReadable s ∧ s.start.toNat ≤ j.toNat ∧
    j.toNat ≤ s.ilen.toNat ∧ exec .crcBuf { s with ilen := j } = .next t ∧
    exec .crcBuf { t with start := j, ilen := s.ilen } = .next u :=
  ⟨window digits 0 9, _, _, 9#16, readable_of (by decide +kernel), by decide, by decide, next_after (by decide +kernel),
    next_after (by decide +kernel)⟩

theorem witness_CrcIsLinear : ∃ S₁ S₂ : List Byte, S₁.length = S₂.length ∧ S₁ ≠ S₂ := ⟨[0x01#8], [0x02#8], by decide⟩

theorem witness_CrcCheckValues : ∃ s u : State, RangeReadable s ∧ RangeReadable u ∧ s.crc = 0x0000#16 ∧ u.crc = 0xFFFF#16 ∧
    bytesAt s.ibuf s.start.toNat s.ilen.toNat = digits ∧ bytesAt u.ibuf u.start.toNat u.ilen.toNat = digits :=
  ⟨{ window digits 0 9 with crc := 0x0000#16 }, window digits 0 9, readable_of (by decide +kernel),
    readable_of (by decide +kernel), by decide +kernel⟩

/-- EncodeBuildsFrame, clause by clause. -/
theorem witness_EncodeBuildsFrame_subop : ∃ s : State, RangeReadable s ∧ s.hdrOp.toNat / 16 % 16 ≠ 0 :=
  ⟨toEncode digits 0#32 0x0410#16, readable_of (by decide +kernel), by decide⟩
theorem witness_EncodeBuildsFrame_long : ∃ s : State, RangeReadable s ∧ s.hdrOp.toNat / 16 % 16 = 0 ∧
    12 + rangeLength s = 8193 :=
  ⟨longPayload 8181, longPayload_readable (by omega), by decide, by rw [longPayload_length (by omega)]⟩
theorem witness_EncodeBuildsFrame_overflow : ∃ s : State, RangeReadable s ∧ s.hdrOp.toNat / 16 % 16 = 0 ∧
    12 + rangeLength s ≤ 8192 ∧ rangePairs s = 8 :=
  ⟨toEncode (List.replicate 9 0xA5#8) 0x00010002#32 0x0700#16, readable_of (by decide +kernel), by decide +kernel⟩
theorem witness_EncodeBuildsFrame_seven : ∃ s : State, EncodeFits s ∧ rangePairs s = 7 :=
  ⟨toEncode (List.replicate 8 0xA5#8) 0x00010002#32 0x0700#16, fits_of (by decide +kernel), by decide +kernel⟩
theorem witness_EncodeBuildsFrame_longest : ∃ s : State, EncodeFits s ∧ 12 + rangeLength s = 8192 :=
  ⟨longPayload 8180, ⟨longPayload_readable (by omega), by decide, by rw [longPayload_length (by omega)],
    by rw [rangePairs, longPayload, zeros_pairs]; omega⟩, by rw [longPayload_length (by omega)]⟩

theorem witness_EncodeNeverAppendsSyncValue : ∃ s t : State, exec .encode s = .next t ∧ t.status = 0x00#8 ∧
    t.result = 0x0080#16 :=
  ⟨toEncode [] 0xF6090000#32 0x0300#16, _, next_after (by decide +kernel), by decide +kernel, by decide +kernel⟩

theorem witness_DecodeFindsFirstPair : ∃ s : State, RangeReadable s ∧ FirstPair s 3 :=
  ⟨window ([0x00#8, 0xA5#8, 0x13#8] ++ frameA) 0 19, readable_of (by decide +kernel), first_of (by decide +kernel)⟩
theorem witness_DecodeFindsFirstPair_none : ∃ s : State, RangeReadable s ∧
    (∀ i, s.start.toNat ≤ i → i + 1 < s.ilen.toNat → pairAt s.ibuf i = false) ∧
    Memory.get? s.ibuf (s.ilen.toNat - 1) = some 0xA5#8 := by
  refine ⟨window [0x01#8, 0x02#8, 0xA5#8] 0 3, readable_of (by decide +kernel), fun i _ h => ?_, by decide⟩
  have h2 : i < 2 := by simp only [window, BitVec.toNat_ofNat] at h; omega
  have hall : ∀ i < 2, pairAt (window [0x01#8, 0x02#8, 0xA5#8] 0 3).ibuf i = false := by decide
  exact hall i h2
theorem witness_DecodeFindsFirstPair_empty : ∃ s : State, RangeReadable s ∧
    ∀ i, s.start.toNat ≤ i → i + 1 < s.ilen.toNat → pairAt s.ibuf i = false :=
  ⟨window [] 0 0, readable_of (by decide), fun i _ h => by simp [window] at h⟩

theorem witness_DecodeReadsHeader_short : ∃ s : State, RangeReadable s ∧ FirstPair s 0 ∧ s.ilen.toNat + 1 = 12 :=
  ⟨window frameA 0 11, readable_of (by decide +kernel), first_of (by decide +kernel), by decide⟩
theorem witness_DecodeReadsHeader_whole : ∃ s : State, RangeReadable s ∧ FirstPair s 0 ∧ s.ilen.toNat = 12 ∧
    (after (exec .decode s)).status = 0x00#8 :=
  ⟨window frameB 0 12, readable_of (by decide +kernel), first_of (by decide +kernel), by decide, by decide +kernel⟩

theorem witness_DecodeChecksLength_short : ∃ s : State, Candidate s 0 11 :=
  ⟨window (envelope 0x00#8 0x0B#8) 0 12, candidate_of (by decide +kernel)⟩
theorem witness_DecodeChecksLength_oversize : ∃ s : State, Candidate s 0 8193 :=
  ⟨window (envelope 0x20#8 0x01#8) 0 12, candidate_of (by decide +kernel)⟩

/-- DecodeRejectsEscapeOverrun: on an incomplete candidate (V38) and on a complete one (V35); its second clause (V36). -/
theorem witness_DecodeRejectsEscapeOverrun_incomplete : ∃ s : State, Candidate s 0 64 ∧ s.ilen.toNat < 64 ∧
    escAt s.ibuf 0 < payloadPairs s 0 64 :=
  ⟨window (early 0x00#8) 0 12, candidate_of (by decide +kernel), by decide, by decide +kernel⟩
theorem witness_DecodeRejectsEscapeOverrun_complete : ∃ s : State, Candidate s 0 18 ∧ s.ilen.toNat = 18 ∧
    escAt s.ibuf 0 + 1 = payloadPairs s 0 18 :=
  ⟨window (frameC 0x20#8) 0 18, candidate_of (by decide +kernel), by decide, by decide +kernel⟩
theorem witness_DecodeRejectsEscapeMismatch : ∃ s : State, Candidate s 0 18 ∧ s.ilen.toNat = 18 ∧
    payloadPairs s 0 18 + 1 = escAt s.ibuf 0 :=
  ⟨window (frameC 0x40#8) 0 18, candidate_of (by decide +kernel), by decide, by decide +kernel⟩

/-- DecodeChecksCompleteness: one byte short; its second clause is met by `witness_DecodeRejectsEscapeMismatch`. -/
theorem witness_DecodeChecksCompleteness : ∃ s : State, Candidate s 0 16 ∧ s.ilen.toNat + 1 = 16 ∧
    payloadPairs s 0 16 ≤ escAt s.ibuf 0 :=
  ⟨window frameA 0 15, candidate_of (by decide +kernel), by decide, by decide +kernel⟩
theorem witness_DecodeChecksCompleteness_early : ∃ s : State, Candidate s 0 64 ∧ s.ilen.toNat < 64 ∧
    payloadPairs s 0 64 = escAt s.ibuf 0 :=
  ⟨window (early 0x10#8) 0 12, candidate_of (by decide +kernel), by decide, by decide +kernel⟩

/-- DecodeChecksCrc: the last byte of the CRC field differs (V37). -/
theorem witness_DecodeChecksCrc : ∃ s : State, Candidate s 0 16 ∧ 0 + 16 ≤ s.ilen.toNat ∧
    payloadPairs s 0 16 = escAt s.ibuf 0 ∧
    (crc16 0xFFFF#16 (bytesAt s.ibuf 0 (0 + 16 - 2))).toNat ≠ be16At s.ibuf (0 + 16 - 2) :=
  ⟨window (frameA.take 15 ++ [0x28#8]) 0 16, candidate_of (by decide +kernel), by decide +kernel⟩

/-- DecodeAcceptsFrame: the shortest frame, and one with three pairs behind a prefix. -/
theorem witness_DecodeAcceptsFrame : ∃ s : State, Candidate s 0 12 ∧ 0 + 12 ≤ s.ilen.toNat ∧
    payloadPairs s 0 12 = escAt s.ibuf 0 ∧
    (crc16 0xFFFF#16 (bytesAt s.ibuf 0 (0 + 12 - 2))).toNat = be16At s.ibuf (0 + 12 - 2) :=
  ⟨window frameB 0 12, candidate_of (by decide +kernel), by decide +kernel⟩
theorem witness_DecodeAcceptsFrame_pairs : ∃ s : State, Candidate s 1 18 ∧ 1 + 18 ≤ s.ilen.toNat ∧
    payloadPairs s 1 18 = escAt s.ibuf 1 ∧ escAt s.ibuf 1 = 3 ∧
    (crc16 0xFFFF#16 (bytesAt s.ibuf 1 (1 + 18 - 2))).toNat = be16At s.ibuf (1 + 18 - 2) :=
  ⟨window (0x00#8 :: frameC 0x30#8) 0 19, candidate_of (by decide +kernel), by decide +kernel⟩

/-- DecodeWithoutAcceptKeepsOutputs and DecodeNextByOutcome: a DECODE with each kind of outcome. -/
theorem witness_DecodeOutcome_ok : ∃ s t : State, exec .decode s = .next t ∧ t.status = 0x00#8 :=
  ⟨window frameA 0 16, _, next_after (by decide +kernel), by decide +kernel⟩
theorem witness_DecodeOutcome_noSync : ∃ s t : State, exec .decode s = .next t ∧ t.status = 0x20#8 :=
  ⟨window [0x01#8, 0x02#8, 0xA5#8] 0 3, _, next_after (by decide +kernel), by decide +kernel⟩
theorem witness_DecodeOutcome_incomplete : ∃ s t : State, exec .decode s = .next t ∧ t.status = 0x21#8 :=
  ⟨window frameA 0 14, _, next_after (by decide +kernel), by decide +kernel⟩
theorem witness_DecodeOutcome_reject : ∃ s t : State, exec .decode s = .next t ∧
    t.status ∈ [0x30#8, 0x31#8, 0x32#8, 0x33#8, 0x34#8] :=
  ⟨window (frameC 0x20#8) 0 18, _, next_after (by decide +kernel), by decide +kernel⟩
theorem witness_DecodeOutcome_arg : ∃ s t : State, exec .decode s = .next t ∧ t.status = 0x03#8 :=
  ⟨window frameA 17 16, _, next_after (by decide +kernel), by decide +kernel⟩

/-- EncodedFrameDecodes: an encoded frame alone in a window (V21). -/
theorem witness_EncodedFrameDecodes : ∃ s u : State, EncodeFits s ∧ rangeLength s = 0 ∧ RangeReadable u ∧ u.start.toNat ≤ 0 ∧
    0 + (12 + rangeLength s) ≤ u.ilen.toNat ∧
    ∀ k < 12, Memory.get? u.ibuf (0 + k) = Memory.get? (after (exec .encode s)).obuf k :=
  ⟨toEncode [] 0x00000005#32 0x0300#16, window frameB 0 12, fits_of (by decide +kernel), by decide, readable_of (by decide +kernel),
    by decide, by decide, by decide +kernel⟩

/-- SingleBitErrorRejected at its first offset and bit, and at its last. -/
theorem witness_SingleBitErrorRejected : ∃ s t u : State, exec .encode s = .next t ∧ t.status = 0x00#8 ∧ u.start = 0#16 ∧
    u.ilen = t.olen ∧ t.olen.toNat = 12 ∧ ∀ k < 12, Memory.get? u.ibuf k =
      if k = 4 then (Memory.get? t.obuf k).map (fun b => b ^^^ (1#8 <<< 0)) else Memory.get? t.obuf k :=
  ⟨toEncode [] 0x00000005#32 0x0300#16, _, window (frameB.take 4 ++ [0x01#8] ++ frameB.drop 5) 0 12,
    next_after (by decide +kernel), by decide +kernel, by decide, by decide +kernel, by decide +kernel, by decide +kernel⟩
theorem witness_SingleBitErrorRejected_last : ∃ s t u : State, exec .encode s = .next t ∧ t.status = 0x00#8 ∧
    u.start = 0#16 ∧ u.ilen = t.olen ∧ t.olen.toNat = 12 ∧ ∀ k < 12, Memory.get? u.ibuf k =
      if k = 11 then (Memory.get? t.obuf k).map (fun b => b ^^^ (1#8 <<< 7)) else Memory.get? t.obuf k :=
  ⟨toEncode [] 0x00000005#32 0x0300#16, _, window (frameB.take 11 ++ [0xFD#8]) 0 12,
    next_after (by decide +kernel), by decide +kernel, by decide, by decide +kernel, by decide +kernel, by decide +kernel⟩

/-- DecodeMovesScanForward and ScanLoopStops: a readable window in which NEXT stays at START, and one in which it moves. -/
theorem witness_DecodeMovesScanForward : ∃ s t : State, RangeReadable s ∧ exec .decode s = .next t ∧ t.next = s.start :=
  ⟨window frameA 0 14, _, readable_of (by decide +kernel), next_after (by decide +kernel), by decide +kernel⟩
theorem witness_ScanLoopStops : ∃ s : State, RangeReadable s ∧ (after (exec .decode s)).next ≠ s.start :=
  ⟨window frameA 0 16, readable_of (by decide +kernel), by decide +kernel⟩

/-- EncodeAfterAcceptMeetsPresetBits: the frame of V25, with D set. -/
theorem witness_EncodeAfterAcceptMeetsPresetBits : ∃ s t : State, exec .decode s = .next t ∧ t.status = 0x00#8 ∧
    16 ≤ (byteAt s.ibuf (t.fpos.toNat + 9)).toNat :=
  ⟨window frameD 0 12, _, next_after (by decide +kernel), by decide +kernel, by decide +kernel⟩

/-- EveryCommandOverwritesStatus and CommandsWriteOnlyTheirWriteSet: every command answers from one state, the plain ones
and the ones over the range; ENCODE also with an index beyond its frame. -/
theorem witness_every_command_answers : ∃ s : State,
    ∀ i ∈ [Instr.nop, .crcInit 1#16, .crcByte 1#8, .crcBuf, .crcTab 1#8, .escCount, .encode, .decode],
      ∃ t, exec i s = .next t :=
  ⟨window frameA 0 16, fun i h => ⟨after (exec i (window frameA 0 16)), next_after (by revert i; decide +kernel)⟩⟩
theorem witness_CommandsWriteOnlyTheirWriteSet_encode : ∃ (s t : State) (a : Nat), exec .encode s = .next t ∧
    t.status = 0x00#8 ∧ 12 + rangeLength s ≤ a :=
  ⟨window frameA 0 16, _, 28, next_after (by decide +kernel), by decide +kernel, by decide +kernel⟩

/-- CommandsReadOnlyTheirReadSet: two states that differ wherever the read set of ENCODE allows. -/
theorem witness_CommandsReadOnlyTheirReadSet : ∃ s u : State, s ≠ u ∧ ReadSetAgrees .encode s u :=
  ⟨window frameA 0 4,
    { window (frameA.take 4) 0 4 with crc := 1#16, status := 2#8, olen := 3#16, obuf := [(0, 0x01#8)] }, by decide +kernel,
    ⟨fun _ => by decide, fun _ => by decide, fun _ a _ h => by
      have hall : ∀ a < 4, Memory.get? (window frameA 0 4).ibuf a = Memory.get? (window (frameA.take 4) 0 4).ibuf a := by
        decide +kernel
      exact hall a (by simp only [window, BitVec.toNat_ofNat] at h; omega),
     fun h => by simp at h, fun _ => by decide, fun _ => by decide⟩⟩

/-- CrcRegisterWriters: a command that changes CRC, and an ENCODE and a DECODE that answer. -/
theorem witness_CrcRegisterWriters : ∃ s t : State, transact (.writeReg (.cmd 0x00310002#32)) s = .next t ∧ t.crc ≠ s.crc :=
  ⟨State.reset, _, next_after (by decide +kernel), by decide +kernel⟩

/-- BufferAndCmdWriters: a transaction that changes IBUF, and one that changes OBUF and CMD. -/
theorem witness_BufferAndCmdWriters_ibuf : ∃ s t : State, transact (.writeByte .ibuf 8191 0xA5#8) s = .next t ∧
    t.ibuf ≠ s.ibuf :=
  ⟨State.reset, _, next_after (by decide), by decide⟩
theorem witness_BufferAndCmdWriters_obuf : ∃ s t : State, transact (.writeReg (.cmd 0x00000006#32)) s = .next t ∧
    t.obuf ≠ s.obuf ∧ t.cmd ≠ s.cmd :=
  ⟨toEncode [] 0x00000005#32 0x0300#16, _, next_after (by decide +kernel), by decide +kernel, by decide +kernel⟩

/-- StepKeepsInv: reset, with a command waiting. -/
theorem witness_StepKeepsInv : ∃ s t : State, Inv s ∧ step s = .next t ∧ t ≠ s :=
  ⟨State.reset.withFetchWord 32 0x00000007, _,
    ⟨rfl, rfl, by decide, by decide, fun i h => absurd h (by simp [State.reset, State.withFetchWord, State.withCommandWord]),
      by decide, by decide⟩, next_after (by decide +kernel), by decide +kernel⟩

end Sys2Proof.Tests
end

section
/-! PROOFS. The state of the block and who writes it: host register writes (10_state.md R32, R33), STATUS (R13;
60_exceptions.md R147) and CRC (R14; 40_crc.md R88).
The inversion lemmas `execEncode_next` and `execDecode_next` say once what an ENCODE or a DECODE that answers a next state
can have done. -/

namespace Sys2Proof.Machine

/-! ## Host writes -/

/-- A write to any register but CMD does no more than the storing half of the access. -/
theorem transact_writeReg {v : RegVal} (s : State) (h : v.reg ≠ .cmd) :
    transact (.writeReg v) s = .next (s.writeReg v) := by
  cases v with
  | cmd w => exact absurd rfl h
  | _ => rfl

/-- A write to a register the host may only read changes nothing (R33). -/
theorem transact_writeReg_readOnly {v : RegVal} (s : State) (h : v.reg.hostWritable = false) :
    transact (.writeReg v) s = .next s := by
  have hcmd : v.reg ≠ .cmd := fun hc => by rw [hc] at h; cases h
  rw [transact_writeReg s hcmd, s.writeReg_readOnly v h]

/-- A write of an OBUF byte inside the buffer changes nothing (R29, R33). -/
theorem transact_writeByte_obuf {i : Nat} (s : State) (b : Byte) (h : i < Config.bufLen) :
    transact (.writeByte .obuf i b) s = .next s :=
  if_pos (decide_eq_true h)

/-- Settles O7: a writable register stores the value; the eight registers of the list are those the host may only read. -/
theorem hostWritesReachWritableRegistersOnly : Obligations.HostWritesReachWritableRegistersOnly := by
  intro s
  have readOnly : ∀ r ∈ [Reg.status, .crc, .olen, .fpos, .next, .flen, .fcrc, .result], r.hostWritable = false := by
    decide
  exact ⟨fun _ => rfl, fun _ => rfl, fun _ => rfl, fun _ => rfl, fun _ => rfl,
    fun v hv => transact_writeReg_readOnly s (readOnly v.reg hv), fun _ v hi => transact_writeByte_obuf s v hi⟩

/-! ## What a command over the input range can answer -/

/-- The bytes of the input range, IBUF[START..ILEN). -/
abbrev rangeBytes (s : State) : List Byte := bytesAt s.ibuf s.start.toNat s.ilen.toNat

/-- A command over the input range that answers a next state met a bad range, or went on with the bytes of a readable one. -/
theorem withRange_next {s a t : State} {go : List Byte → Result} (h : withRange s a go = .next t) :
    (¬ RangeValid s ∧ t = a) ∨ (RangeReadable s ∧ go (rangeBytes s) = .next t) := by
  rcases withRange_cases s a go with ⟨hv, hx⟩ | ⟨-, -, hx⟩ | ⟨hr, hx⟩ <;> rw [hx] at h
  · cases h; exact .inl ⟨hv, rfl⟩
  · cases h
  · exact .inr ⟨hr, h⟩

/-- The final header byte of an ENCODE of payload `P` (R103, R104). -/
abbrev encodeHeader (s : State) (P : List Byte) : Byte :=
  finalHeader s.hdrAddr (opcodeField s.hdrOp) (headerByte (esc P) (subField s.hdrOp)) P

/-- The state after a successful ENCODE of payload `P` with final header byte `h` (R103). -/
def encodeSucceeds (s : State) (h : Byte) (P : List Byte) : State :=
  { s with
    obuf := Memory.setAll s.obuf 0 (closeFrame (frameBody s.hdrAddr (opcodeField s.hdrOp) h P)),
    olen := BitVec.ofNat 16 (12 + P.length), flen := BitVec.ofNat 16 (12 + P.length),
    fcrc := frameCrc (frameBody s.hdrAddr (opcodeField s.hdrOp) h P), result := h.setWidth 16 }.report .ok

@[simp] theorem encodeSucceeds_status (s : State) (h : Byte) (P : List Byte) :
    (encodeSucceeds s h P).status = 0x00#8 := rfl
@[simp] theorem encodeSucceeds_crc (s : State) (h : Byte) (P : List Byte) : (encodeSucceeds s h P).crc = s.crc := rfl
@[simp] theorem encodeSucceeds_fcrc (s : State) (h : Byte) (P : List Byte) :
    (encodeSucceeds s h P).fcrc = frameCrc (frameBody s.hdrAddr (opcodeField s.hdrOp) h P) := rfl
@[simp] theorem encodeSucceeds_olen (s : State) (h : Byte) (P : List Byte) :
    (encodeSucceeds s h P).olen = BitVec.ofNat 16 (12 + P.length) := rfl
@[simp] theorem encodeSucceeds_obuf (s : State) (h : Byte) (P : List Byte) : (encodeSucceeds s h P).obuf =
    Memory.setAll s.obuf 0 (closeFrame (frameBody s.hdrAddr (opcodeField s.hdrOp) h P)) := rfl

/-- The codes of the ENCODE failures of 60_exceptions.md R141. -/
def encodeFailCodes : List StatusCode := [.errArg, .encSubopRange, .encTooLong, .encEscOverflow]

/-- HDR_OP[7:4] is 0 exactly when it is as a number (R18). -/
theorem presetField_eq_zero {v : Half} : presetField v = 0#4 ↔ v.toNat / 16 % 16 = 0 := by
  rw [← BitVec.toNat_inj]
  simp [presetField, BitVec.extractLsb'_toNat, Nat.shiftRight_eq_div_pow]

/-- An ENCODE that answers a next state failed with one of its codes, writing at most RESULT, OLEN and STATUS, or wrote the
frame of its payload (R103). -/
theorem execEncode_next {s t : State} (h : exec .encode s = .next t) :
    (∃ c ∈ encodeFailCodes, t = encodeFails c { s with result := t.result }) ∨
    (EncodeFits s ∧ t = encodeSucceeds s (encodeHeader s (rangeBytes s)) (rangeBytes s)) := by
  rcases withRange_next h with ⟨-, rfl⟩ | ⟨hr, hp⟩
  · exact .inl ⟨.errArg, by decide, rfl⟩
  rcases encodePayload_cases s (rangeBytes s) with
    ⟨-, hx⟩ | ⟨-, -, hx⟩ | ⟨-, -, -, hx⟩ | ⟨hsub, hlen, hesc, hx⟩ <;> rw [hx] at hp
  · cases hp; exact .inl ⟨.encSubopRange, by decide, rfl⟩
  · cases hp; exact .inl ⟨.encTooLong, by decide, rfl⟩
  · cases hp; exact .inl ⟨.encEscOverflow, by decide, rfl⟩
  · rw [encodeWrites_fits hlen] at hp
    cases hp
    rw [bytesAt_length] at hlen
    rw [esc_bytesAt hr.2] at hesc
    exact .inr ⟨⟨hr, presetField_eq_zero.1 hsub, hlen, hesc⟩, rfl⟩

/-- The codes of a DECODE that rejects its candidate, or waits for the rest of it (R119). -/
def decodeRejectCodes : List StatusCode :=
  [.decIncomplete, .decLenShort, .decLenOversize, .decEscOverrun, .decEscMismatch, .decCrc]

/-- A candidate window that passes every check of R113 to R116. -/
structure CandidatePasses (C : List Byte) : Prop where
  lengthMin : 12 ≤ (candLen C).toNat
  lengthMax : (candLen C).toNat ≤ 8192
  complete : (candLen C).toNat ≤ C.length
  pairs : esc (candPayload C) = escField (candHeader C)
  crcAgrees : frameCrc (C.take ((candLen C).toNat - 2)) = candCrc C

/-- The state after the accept of the candidate `C` at `p` (R117); FPOS and FLEN are written before. -/
def decodeSucceeds (s : State) (p : Nat) (C : List Byte) : State :=
  { s with
    hdrAddr := be16 (candByte C 4) (candByte C 5) ++ be16 (candByte C 6) (candByte C 7),
    hdrOp := be16 (candByte C 8) (candHeader C), fcrc := candCrc C,
    obuf := Memory.setAll s.obuf 0 (candPayload C), olen := BitVec.ofNat 16 ((candLen C).toNat - 12),
    next := BitVec.ofNat 16 (p + (candLen C).toNat) }.report .ok

@[simp] theorem decodeSucceeds_status (s : State) (p : Nat) (C : List Byte) :
    (decodeSucceeds s p C).status = 0x00#8 := rfl
@[simp] theorem decodeSucceeds_crc (s : State) (p : Nat) (C : List Byte) : (decodeSucceeds s p C).crc = s.crc := rfl
@[simp] theorem decodeSucceeds_fcrc (s : State) (p : Nat) (C : List Byte) :
    (decodeSucceeds s p C).fcrc = candCrc C := rfl
@[simp] theorem decodeSucceeds_fpos (s : State) (p : Nat) (C : List Byte) : (decodeSucceeds s p C).fpos = s.fpos := rfl
@[simp] theorem decodeSucceeds_flen (s : State) (p : Nat) (C : List Byte) : (decodeSucceeds s p C).flen = s.flen := rfl

/-- The checks of a candidate reject it with one of their codes, writing NEXT and STATUS, or all pass and it is accepted. -/
theorem decodeFramed_next {s t : State} {p : Nat} {C : List Byte} (h : decodeFramed s p C = .next t) :
    (∃ c ∈ decodeRejectCodes, ∃ nx, t = decodeRejects c nx s) ∨ (CandidatePasses C ∧ t = decodeSucceeds s p C) := by
  rcases decodeFramed_cases s p C with ⟨-, hx⟩ | ⟨-, hx⟩ | ⟨hmin, hmax, ⟨-, hx⟩ | ⟨-, -, hx⟩ | ⟨-, -, hx⟩ | ⟨-, -, -, hx⟩ |
    ⟨hesc, hlen, hcrc, hx⟩⟩ <;> rw [hx] at h
  · cases h; exact .inl ⟨.decLenShort, by decide, _, rfl⟩
  · cases h; exact .inl ⟨.decLenOversize, by decide, _, rfl⟩
  · cases h; exact .inl ⟨.decEscOverrun, by decide, _, rfl⟩
  · cases h; exact .inl ⟨.decIncomplete, by decide, _, rfl⟩
  · cases h; exact .inl ⟨.decEscMismatch, by decide, _, rfl⟩
  · cases h; exact .inl ⟨.decCrc, by decide, _, rfl⟩
  · rw [decodeAccepts_fits hmax] at h
    cases h; exact .inr ⟨⟨hmin, hmax, hlen, hesc, hcrc⟩, rfl⟩

/-- A DECODE that answers a next state met a bad range, found no sync pair, or took the first pair of a readable window as its
candidate and then rejected or accepted it (R110). -/
theorem execDecode_next {s t : State} (h : exec .decode s = .next t) :
    t = s.report .errArg ∨
    (RangeReadable s ∧ t = decodeNoSync s (rangeBytes s)) ∨
    (RangeReadable s ∧ ∃ p, FirstPair s p ∧
      ((∃ c ∈ decodeRejectCodes, ∃ nx len, t = decodeRejects c nx { s with fpos := BitVec.ofNat 16 p, flen := len }) ∨
       (CandidatePasses (candidateBytes s p) ∧ t = decodeSucceeds
          { s with fpos := BitVec.ofNat 16 p, flen := candLen (candidateBytes s p) } p (candidateBytes s p)))) := by
  rcases withRange_next h with ⟨-, rfl⟩ | ⟨hr, -⟩
  · exact .inl rfl
  rcases execDecode_readable hr with ⟨-, hx⟩ | ⟨p, hp, hx⟩ <;> rw [exec, hx] at h
  · cases h; exact .inr (.inl ⟨hr, rfl⟩)
  refine .inr (.inr ⟨hr, p, hp, ?_⟩)
  rcases decodeCandidate_cases { s with fpos := BitVec.ofNat 16 p } p (candidateBytes s p) with ⟨-, hx⟩ | ⟨-, hx⟩ <;>
    rw [hx] at h
  · cases h; exact .inl ⟨.decIncomplete, by decide, _, _, rfl⟩
  · rcases decodeFramed_next h with ⟨c, hc, nx, rfl⟩ | ⟨hpass, rfl⟩
    · exact .inl ⟨c, hc, nx, _, rfl⟩
    · exact .inr ⟨hpass, rfl⟩

/-! ## STATUS -/

/-- Every failure code of ENCODE is one R141 lets it write. -/
theorem code_mem_codesOf_encode : ∀ c ∈ encodeFailCodes, c.code ∈ codesOf .encode := by decide

/-- Every reject code of DECODE is one R141 lets it write. -/
theorem code_mem_codesOf_decode : ∀ c ∈ decodeRejectCodes, c.code ∈ codesOf .decode := by decide

/-- A command that answers a next state leaves one of its own codes in STATUS. -/
theorem exec_status_mem_codesOf {i : Instr} {s t : State} (h : exec i s = .next t) : t.status ∈ codesOf i := by
  cases i with
  | nop | crcInit _ | crcByte _ | crcTab _ => cases h; exact List.mem_singleton_self _
  | crcBuf | escCount =>
    rcases withRange_next h with ⟨-, rfl⟩ | ⟨-, hgo⟩
    · exact List.mem_cons_of_mem _ (List.mem_singleton_self _)
    · cases hgo; exact List.mem_cons_self
  | encode =>
    rcases execEncode_next h with ⟨c, hc, ht⟩ | ⟨-, rfl⟩
    · rw [ht]; exact code_mem_codesOf_encode c hc
    · exact List.mem_cons_self
  | decode =>
    rcases execDecode_next h with rfl | ⟨-, rfl⟩ | ⟨-, p, -, ⟨c, hc, nx, len, rfl⟩ | ⟨-, rfl⟩⟩
    · exact (by decide : StatusCode.errArg.code ∈ codesOf .decode)
    · exact (by decide : StatusCode.decNoSync.code ∈ codesOf .decode)
    · exact code_mem_codesOf_decode c hc
    · exact List.mem_cons_self

/-- No command reads STATUS, and each builds its answer with `State.report`, which overwrites it: with another value in
STATUS every answer is the same state. -/
theorem exec_overwrites_status (i : Instr) (s : State) (v : Byte) : exec i { s with status := v } = exec i s := by
  cases i <;> rfl

/-- Settles O39: the codes by the inversion of each command, the independence from the old value by the report. -/
theorem everyCommandOverwritesStatus : Obligations.EveryCommandOverwritesStatus :=
  fun i s => ⟨fun _ h => exec_status_mem_codesOf h, exec_overwrites_status i s⟩

/-! ## CRC: who writes it -/

@[simp] theorem State.writeReg_crc (s : State) (v : RegVal) : (s.writeReg v).crc = s.crc := by
  cases v <;> rfl

/-- The commands that write CRC (R14). -/
def writesCrc : Instr → Prop
  | .crcInit _ | .crcByte _ | .crcBuf => True
  | .nop | .crcTab _ | .escCount | .encode | .decode => False

theorem writesCrc_iff {i : Instr} : writesCrc i ↔ (∃ seed, i = .crcInit seed) ∨ (∃ b, i = .crcByte b) ∨ i = .crcBuf := by
  cases i <;> simp [writesCrc]

/-- Every other command leaves CRC as it was. -/
theorem exec_keeps_crc {i : Instr} {s t : State} (hi : ¬ writesCrc i) (h : exec i s = .next t) : t.crc = s.crc := by
  cases i with
  | crcInit _ | crcByte _ | crcBuf => exact absurd trivial hi
  | nop | crcTab _ => cases h; rfl
  | escCount =>
    rcases withRange_next h with ⟨-, rfl⟩ | ⟨-, hgo⟩
    · rfl
    · cases hgo; rfl
  | encode =>
    rcases execEncode_next h with ⟨c, -, ht⟩ | ⟨-, rfl⟩
    · rw [ht]; rfl
    · rfl
  | decode =>
    rcases execDecode_next h with rfl | ⟨-, rfl⟩ | ⟨-, p, -, ⟨c, -, nx, len, rfl⟩ | ⟨-, rfl⟩⟩ <;> rfl

/-- A transaction that changes CRC is the reset event or issues a command that writes CRC. -/
theorem transact_crc_writer {s t : State} {tx : HostTx} (h : transact tx s = .next t) (hc : t.crc ≠ s.crc) :
    tx = .reset ∨ ∃ w i, tx = .writeReg (.cmd w) ∧ decode w = .command i ∧ writesCrc i := by
  rcases transact_cases h with ⟨w, rfl, hw⟩ | ⟨v, -, -, rfl⟩ | ⟨r, -, rfl⟩ | ⟨i, b, m, -, -, rfl⟩ | ⟨i, b, -, -, rfl⟩ |
    ⟨buf, i, S, -, -, rfl⟩ | ⟨rfl, -⟩
  · rcases issue_cases w { s with cmd := w } with ⟨i, hd, hx⟩ | ⟨-, hx⟩ | ⟨-, hx⟩ <;> rw [hx] at hw
    · refine .inr ⟨w, i, rfl, hd, ?_⟩
      by_contra hi
      have hkeep := exec_keeps_crc hi hw
      exact hc hkeep
    · cases hw; exact absurd rfl hc
    · cases hw; exact absurd rfl hc
  · exact absurd (s.writeReg_crc v) hc
  · exact absurd rfl hc
  · exact absurd rfl hc
  · exact absurd rfl hc
  · exact absurd rfl hc
  · exact .inl rfl

/-! ## CRC: ENCODE and DECODE do not read it -/

/-- The same answer with another value in CRC. -/
def withCrc (c : Half) : Result → Result
  | .next t => .next { t with crc := c }
  | .fault f => .fault f
  | .refused r => .refused r

/-- A command over the input range does not read CRC when neither of its two ways on does. -/
theorem withRange_withCrc {s a : State} {go go' : List Byte → Result} (c : Half) (hgo : ∀ S, go' S = withCrc c (go S)) :
    withRange { s with crc := c } { a with crc := c } go' = withCrc c (withRange s a go) := by
  rcases withRange_cases s a go with ⟨hv, hx⟩ | ⟨hv, ⟨i, hlo, hhi, hw⟩, hx⟩ | ⟨hr, hx⟩ <;> rw [hx]
  · exact withRange_invalid hv
  · exact withRange_unwritten hv hlo hhi hw
  · rw [← hgo]; exact withRange_readable hr

theorem encodeWrites_withCrc (s : State) (c : Half) (hdr : Byte) (P : List Byte) :
    encodeWrites { s with crc := c } hdr P = withCrc c (encodeWrites s hdr P) := by
  unfold encodeWrites
  dsimp only
  split <;> rfl

theorem encodePayload_withCrc (s : State) (c : Half) (P : List Byte) :
    encodePayload { s with crc := c } P = withCrc c (encodePayload s P) := by
  unfold encodePayload
  split_ifs
  · rfl
  · rfl
  · rfl
  · exact encodeWrites_withCrc s c _ P

theorem decodeAccepts_withCrc (s : State) (c : Half) (p : Nat) (C : List Byte) :
    decodeAccepts { s with crc := c } p C = withCrc c (decodeAccepts s p C) := by
  unfold decodeAccepts
  dsimp only
  split <;> rfl

theorem decodeFramed_withCrc (s : State) (c : Half) (p : Nat) (C : List Byte) :
    decodeFramed { s with crc := c } p C = withCrc c (decodeFramed s p C) := by
  unfold decodeFramed
  dsimp only
  split_ifs
  case neg => exact decodeAccepts_withCrc s c p C
  all_goals rfl

theorem decodeCandidate_withCrc (s : State) (c : Half) (p : Nat) (C : List Byte) :
    decodeCandidate { s with crc := c } p C = withCrc c (decodeCandidate s p C) := by
  unfold decodeCandidate
  split_ifs
  · rfl
  · exact decodeFramed_withCrc { s with flen := candLen C } c p C

theorem decodeWindow_withCrc (s : State) (c : Half) (W : List Byte) :
    decodeWindow { s with crc := c } W = withCrc c (decodeWindow s W) := by
  unfold decodeWindow
  split
  · rfl
  next q _ => exact decodeCandidate_withCrc { s with fpos := BitVec.ofNat 16 (s.start.toNat + q) } c _ _

/-- ENCODE with another value in CRC answers the same, with that value. -/
theorem execEncode_withCrc (s : State) (c : Half) : exec .encode { s with crc := c } = withCrc c (exec .encode s) :=
  withRange_withCrc (a := encodeFails .errArg s) c (encodePayload_withCrc s c)

/-- DECODE with another value in CRC answers the same, with that value. -/
theorem execDecode_withCrc (s : State) (c : Half) : exec .decode { s with crc := c } = withCrc c (exec .decode s) :=
  withRange_withCrc (a := s.report .errArg) c (decodeWindow_withCrc s c)

/-! ## The CRC field of a frame -/

/-- The bytes written from index 0 on read back. -/
theorem bytesAt_setAll_zero (m : Memory) (S : List Byte) {n : Nat} (h : n ≤ S.length) :
    bytesAt (Memory.setAll m 0 S) 0 n = S.take n := by
  apply List.ext_getElem?
  intro k
  rw [bytesAt_getElem?, List.getElem?_take, Nat.zero_add]
  by_cases hk : k < n
  · have hw : Memory.get? (Memory.setAll m 0 S) k = some S[k] := by
      rw [Memory.get?_setAll, if_pos (by omega), Nat.sub_zero, List.getElem?_eq_getElem (by omega)]
    rw [if_pos hk, if_pos hk, byteAt_of_get? hw, List.getElem?_eq_getElem (by omega)]
  · rw [if_neg hk, if_neg hk]

/-- A successful ENCODE leaves in OBUF, before the CRC field, the bytes its CRC is computed over. -/
theorem encodeSucceeds_fcrc_eq (s : State) (hdr : Byte) {P : List Byte} (hlen : 12 + P.length ≤ 8192) :
    (encodeSucceeds s hdr P).fcrc =
      crc16 0xFFFF#16 (bytesAt (encodeSucceeds s hdr P).obuf 0 ((encodeSucceeds s hdr P).olen.toNat - 2)) := by
  have holen : (encodeSucceeds s hdr P).olen.toNat - 2 = (frameBody s.hdrAddr (opcodeField s.hdrOp) hdr P).length := by
    rw [encodeSucceeds_olen, frameBody_length, BitVec.toNat_ofNat]; omega
  rw [holen, encodeSucceeds_obuf, bytesAt_setAll_zero _ _ (by rw [closeFrame_length]; omega), closeFrame,
    List.take_left, encodeSucceeds_fcrc, frameCrc]

/-- A candidate that passes has in its CRC field the CRC over the bytes of IBUF before that field. -/
theorem candCrc_eq {s : State} {p : Nat} (h : CandidatePasses (candidateBytes s p)) :
    candCrc (candidateBytes s p) =
      crc16 0xFFFF#16 (bytesAt s.ibuf p (p + (candLen (candidateBytes s p)).toNat - 2)) := by
  have hmin := h.lengthMin
  have hfits := h.complete
  rw [bytesAt_length] at hfits
  rw [← h.crcAgrees, frameCrc, bytesAt_take, Nat.min_eq_left (by omega), Nat.add_sub_assoc (by omega)]

/-- The FCRC of a successful ENCODE (R88). -/
theorem execEncode_ok_fcrc {s t : State} (h : exec .encode s = .next t) (hok : t.status = 0x00#8) :
    t.fcrc = crc16 0xFFFF#16 (bytesAt t.obuf 0 (t.olen.toNat - 2)) := by
  rcases execEncode_next h with ⟨c, hc, ht⟩ | ⟨hfits, rfl⟩
  · have hfail : ∀ c ∈ encodeFailCodes, c.code ≠ 0x00#8 := by decide
    rw [ht, encodeFails_status] at hok
    exact absurd hok (hfail c hc)
  · exact encodeSucceeds_fcrc_eq s _ (by rw [bytesAt_length]; exact hfits.frameFits)

/-- The index of a first pair fits the registers that hold it. -/
theorem FirstPair.toNat_ofNat {s : State} {p : Nat} (h : FirstPair s p) : (BitVec.ofNat 16 p).toNat = p := by
  have hin := h.inWindow
  rw [BitVec.toNat_ofNat]
  exact Nat.mod_eq_of_lt (by omega)

/-- The FCRC of an accepted DECODE (R88, R117). -/
theorem execDecode_ok_fcrc {s t : State} (h : exec .decode s = .next t) (hok : t.status = 0x00#8) :
    t.fcrc = crc16 0xFFFF#16 (bytesAt s.ibuf t.fpos.toNat (t.fpos.toNat + t.flen.toNat - 2)) := by
  rcases execDecode_next h with rfl | ⟨-, rfl⟩ | ⟨-, p, hp, ⟨c, hc, nx, len, rfl⟩ | ⟨hpass, rfl⟩⟩
  · cases hok
  · cases hok
  · have hreject : ∀ c ∈ decodeRejectCodes, c.code ≠ 0x00#8 := by decide
    exact absurd hok (hreject c hc)
  · rw [decodeSucceeds_fcrc, decodeSucceeds_fpos, decodeSucceeds_flen, hp.toNat_ofNat]
    exact candCrc_eq hpass

/-- Settles O42: the writers by the inversion of a transaction, the independence by following CRC through both commands, the
CRC of a frame by the inversions of ENCODE and DECODE. -/
theorem crcRegisterWriters : Obligations.CrcRegisterWriters := by
  refine ⟨fun s t tx h hc => ?_, fun s t c => ⟨fun h => ?_, fun h => ?_⟩, fun s t => execEncode_ok_fcrc,
    fun s t => execDecode_ok_fcrc⟩
  · simpa only [writesCrc_iff] using transact_crc_writer h hc
  · rw [execEncode_withCrc, h]; rfl
  · rw [execDecode_withCrc, h]; rfl

end Sys2Proof.Machine
end

section
/-! PROOFS. Who reads and writes what: host reads and writes have no side effect (20_memory.md R51), and each command keeps to
its write set (R49) and its read set (R48). -/

namespace Sys2Proof.Machine

/-! ## Host reads and writes -/

/-- What a host read returned is no part of any register. -/
theorem State.readReg_withReadData (s : State) (d : Option ReadData) (r : Reg) :
    { s with readData := d }.readReg r = s.readReg r := by
  cases r <;> rfl

/-- What a host read returned is no part of any buffer. -/
theorem State.buf_withReadData (s : State) (d : Option ReadData) (b : Buf) : { s with readData := d }.buf b = s.buf b := by
  cases b <;> rfl

/-- A register read answers the same whatever a read before it returned. -/
theorem transact_readReg_withReadData (s : State) (d : Option ReadData) (r : Reg) :
    transact (.readReg r) { s with readData := d } = transact (.readReg r) s := by
  rw [transact, hostReadReg, s.readReg_withReadData]; rfl

/-- A byte read answers the same whatever a read before it returned. -/
theorem transact_readByte_withReadData (s : State) (d : Option ReadData) (b : Buf) (i : Nat) :
    transact (.readByte b i) { s with readData := d } = transact (.readByte b i) s := by
  rw [transact, hostReadByte, s.buf_withReadData]; rfl

/-- A write to a register other than CMD stores its value in one of the four the host may write, or changes nothing. -/
theorem State.writeReg_cases (s : State) {v : RegVal} (h : v.reg ≠ .cmd) :
    s.writeReg v = s ∨ (∃ w, v = .ilen w ∧ s.writeReg v = { s with ilen := w }) ∨
    (∃ w, v = .start w ∧ s.writeReg v = { s with start := w }) ∨
    (∃ w, v = .hdrAddr w ∧ s.writeReg v = { s with hdrAddr := w }) ∨
    ∃ w, v = .hdrOp w ∧ s.writeReg v = { s with hdrOp := w } := by
  cases v with
  | cmd w => exact absurd rfl h
  | ilen w => exact .inr (.inl ⟨w, rfl, rfl⟩)
  | start w => exact .inr (.inr (.inl ⟨w, rfl, rfl⟩))
  | hdrAddr w => exact .inr (.inr (.inr (.inl ⟨w, rfl, rfl⟩)))
  | hdrOp w => exact .inr (.inr (.inr (.inr ⟨w, rfl, rfl⟩)))
  | status _ | crc _ | olen _ | fpos _ | next _ | flen _ | fcrc _ | result _ => exact .inl rfl

/-- Settles O8: of what a transaction can do, a read changes `readData` alone, which no read looks at, and a write other than
to CMD stores its one value or nothing. -/
theorem hostReadsHaveNoSideEffect : Obligations.HostReadsHaveNoSideEffect := by
  intro s t tx h
  rcases transact_cases h with ⟨w, rfl, -⟩ | ⟨v, rfl, hv, rfl⟩ | ⟨r, rfl, rfl⟩ | ⟨i, b, m, rfl, hw, rfl⟩ |
    ⟨i, b, rfl, -, rfl⟩ | ⟨buf, i, S, rfl, -, rfl⟩ | ⟨rfl, -⟩
  · exact ⟨fun hread => by simp at hread, fun hwrite => by simp [RegVal.reg] at hwrite⟩
  · refine ⟨fun hread => by simp at hread, fun _ => ?_⟩
    rcases s.writeReg_cases hv with hx | ⟨w, rfl, -⟩ | ⟨w, rfl, -⟩ | ⟨w, rfl, -⟩ | ⟨w, rfl, -⟩
    · exact .inl hx
    · exact .inr (.inl ⟨rfl, rfl⟩)
    · exact .inr (.inr (.inl ⟨rfl, rfl⟩))
    · exact .inr (.inr (.inr (.inl ⟨rfl, rfl⟩)))
    · exact .inr (.inr (.inr (.inr (.inl ⟨rfl, rfl⟩))))
  · exact ⟨fun _ => ⟨rfl, transact_readReg_withReadData s _ r⟩, fun hwrite => by simp at hwrite⟩
  · obtain ⟨-, rfl⟩ := memWrite_eq_ok.1 hw
    exact ⟨fun hread => by simp at hread,
      fun _ => .inr (.inr (.inr (.inr (.inr ⟨i, b, rfl, rfl, fun j => Memory.get?_set s.ibuf i j b⟩))))⟩
  · exact ⟨fun hread => by simp at hread, fun _ => .inl rfl⟩
  · exact ⟨fun _ => ⟨rfl, (transact_readByte_withReadData s _ buf i).trans h⟩, fun hwrite => by simp at hwrite⟩
  · exact ⟨fun hread => by simp at hread, fun hwrite => by simp at hwrite⟩

/-! ## Write sets -/

/-- CRC_BUF writes at most CRC and STATUS (R49). -/
theorem execCrcBuf_frame {s t : State} (h : exec .crcBuf s = .next t) :
    t = { s with status := t.status, crc := t.crc } := by
  rcases withRange_next h with ⟨-, rfl⟩ | ⟨-, hgo⟩
  · rfl
  · cases hgo; rfl

/-- ESC_COUNT writes at most RESULT and STATUS (R49). -/
theorem execEscCount_frame {s t : State} (h : exec .escCount s = .next t) :
    t = { s with status := t.status, result := t.result } := by
  rcases withRange_next h with ⟨-, rfl⟩ | ⟨-, hgo⟩
  · rfl
  · cases hgo; rfl

/-- ENCODE writes at most the registers of its write set and, when it succeeds, the bytes [0, L) of OBUF (R49). -/
theorem execEncode_frame {s t : State} (h : exec .encode s = .next t) :
    t = { s with status := t.status, obuf := t.obuf, olen := t.olen, flen := t.flen, fcrc := t.fcrc,
                 result := t.result } ∧
    ∀ a, (t.status ≠ 0x00#8 ∨ 12 + rangeLength s ≤ a) → Memory.get? t.obuf a = Memory.get? s.obuf a := by
  rcases execEncode_next h with ⟨c, -, ht⟩ | ⟨-, rfl⟩
  · generalize t.result = r at ht
    subst ht
    exact ⟨rfl, fun _ _ => rfl⟩
  · refine ⟨rfl, fun a ha => ?_⟩
    have hbeyond : 12 + rangeLength s ≤ a := ha.resolve_left (not_not.2 rfl)
    rw [encodeSucceeds_obuf, Memory.get?_setAll, if_neg]
    rw [closeFrame_length, frameBody_length, bytesAt_length]
    rw [rangeLength] at hbeyond
    omega

/-- The payload of a candidate that passes takes L - 12 bytes, L by absolute index. -/
theorem CandidatePasses.payload_length_le {s : State} {p : Nat} (h : CandidatePasses (candidateBytes s p)) :
    (candPayload (candidateBytes s p)).length ≤ be16At s.ibuf (p + 2) - 12 := by
  have hmin := h.lengthMin
  have hfits := h.complete
  rw [bytesAt_length] at hfits
  rw [← candLen_bytesAt (show p + 12 ≤ s.ilen.toNat by omega)]
  exact candPayload_length_le _

/-- A DECODE that answers a next state left the accept-only registers and OBUF alone, with a code that is not OK, or
accepted the candidate FPOS names, with a payload that ends before L - 12 (R117, R118). -/
theorem execDecode_frame {s t : State} (h : exec .decode s = .next t) :
    (t.status ≠ 0x00#8 ∧ t = { s with status := t.status, fpos := t.fpos, next := t.next, flen := t.flen }) ∨
    (t.status = 0x00#8 ∧
      t = { s with status := t.status, fpos := t.fpos, next := t.next, flen := t.flen, hdrAddr := t.hdrAddr,
                   hdrOp := t.hdrOp, fcrc := t.fcrc, olen := t.olen, obuf := t.obuf } ∧
      ∃ P : List Byte, P.length ≤ be16At s.ibuf (t.fpos.toNat + 2) - 12 ∧ t.obuf = Memory.setAll s.obuf 0 P) := by
  have hreject : ∀ c ∈ decodeRejectCodes, c.code ≠ 0x00#8 := by decide
  rcases execDecode_next h with rfl | ⟨-, rfl⟩ | ⟨-, p, hp, ⟨c, hc, nx, len, rfl⟩ | ⟨hpass, rfl⟩⟩
  · exact .inl ⟨(by decide : StatusCode.errArg.code ≠ 0x00#8), rfl⟩
  · exact .inl ⟨(by decide : StatusCode.decNoSync.code ≠ 0x00#8), rfl⟩
  · exact .inl ⟨hreject c hc, rfl⟩
  · refine .inr ⟨rfl, rfl, candPayload (candidateBytes s p), ?_, rfl⟩
    rw [decodeSucceeds_fpos, hp.toNat_ofNat]
    exact hpass.payload_length_le

/-- DECODE meets its write set (R49): the accept-only registers and the bytes [0, L - 12) of OBUF change on accept only. -/
theorem execDecode_writeSet {s t : State} (h : exec .decode s = .next t) :
    t = { s with status := t.status, fpos := t.fpos, next := t.next, flen := t.flen, hdrAddr := t.hdrAddr,
                 hdrOp := t.hdrOp, fcrc := t.fcrc, olen := t.olen, obuf := t.obuf } ∧
    (t.status ≠ 0x00#8 →
      t.hdrAddr = s.hdrAddr ∧ t.hdrOp = s.hdrOp ∧ t.fcrc = s.fcrc ∧ t.olen = s.olen ∧ t.obuf = s.obuf) ∧
    ∀ a, (t.status ≠ 0x00#8 ∨ be16At s.ibuf (t.fpos.toNat + 2) - 12 ≤ a) →
      Memory.get? t.obuf a = Memory.get? s.obuf a := by
  rcases execDecode_frame h with ⟨-, ht⟩ | ⟨hok, ht, P, hlen, hobuf⟩
  · rw [ht]
    exact ⟨rfl, fun _ => ⟨rfl, rfl, rfl, rfl, rfl⟩, fun _ _ => rfl⟩
  · refine ⟨ht, fun hne => absurd hok hne, fun a ha => ?_⟩
    have hbeyond := ha.resolve_left (not_not.2 hok)
    rw [hobuf, Memory.get?_setAll, if_neg (by omega)]

/-- Settles O40: a plain command answers its one next state, the others by their frames. -/
theorem commandsWriteOnlyTheirWriteSet : Obligations.CommandsWriteOnlyTheirWriteSet := by
  intro s t
  refine ⟨fun h => ?_, fun seed h => ?_, fun b h => ?_, execCrcBuf_frame, fun idx h => ?_, execEscCount_frame,
    execEncode_frame, execDecode_writeSet⟩
  · cases h; rfl
  · cases h; rfl
  · cases h; rfl
  · cases h; rfl

/-! ## Read sets: two runs with the same effect -/

/-- Two runs, from `s` to `t` and from `u` to `v`, write the same values: each register but STATUS and each byte of OBUF
ends the same or is left alone by both. -/
structure SameWrites (s t u v : State) : Prop where
  crc : SameEffect s.crc t.crc u.crc v.crc
  hdrAddr : SameEffect s.hdrAddr t.hdrAddr u.hdrAddr v.hdrAddr
  hdrOp : SameEffect s.hdrOp t.hdrOp u.hdrOp v.hdrOp
  olen : SameEffect s.olen t.olen u.olen v.olen
  fpos : SameEffect s.fpos t.fpos u.fpos v.fpos
  next : SameEffect s.next t.next u.next v.next
  flen : SameEffect s.flen t.flen u.flen v.flen
  fcrc : SameEffect s.fcrc t.fcrc u.fcrc v.fcrc
  result : SameEffect s.result t.result u.result v.result
  obuf : ∀ a, SameEffect (Memory.get? s.obuf a) (Memory.get? t.obuf a) (Memory.get? u.obuf a) (Memory.get? v.obuf a)

/-- Two runs that write nothing. -/
theorem SameWrites.refl (s u : State) : SameWrites s s u u where
  crc := .inr ⟨rfl, rfl⟩
  hdrAddr := .inr ⟨rfl, rfl⟩
  hdrOp := .inr ⟨rfl, rfl⟩
  olen := .inr ⟨rfl, rfl⟩
  fpos := .inr ⟨rfl, rfl⟩
  next := .inr ⟨rfl, rfl⟩
  flen := .inr ⟨rfl, rfl⟩
  fcrc := .inr ⟨rfl, rfl⟩
  result := .inr ⟨rfl, rfl⟩
  obuf := fun _ => .inr ⟨rfl, rfl⟩

section
variable {s t u v : State}

/-- One sequence written into both output buffers. -/
theorem SameWrites.setAll_obuf (h : SameWrites s t u v) (S : List Byte) (a : Nat) :
    SameEffect (Memory.get? s.obuf a) (Memory.get? (Memory.setAll t.obuf 0 S) a)
      (Memory.get? u.obuf a) (Memory.get? (Memory.setAll v.obuf 0 S) a) := by
  rw [Memory.get?_setAll, Memory.get?_setAll]
  split_ifs
  · exact .inl rfl
  · exact h.obuf a

/-- Two answers, from `s` and from `u`, are alike: next states with the same STATUS and the same writes, or the same
fault. -/
inductive AnswersAlike (s u : State) : Result → Result → Prop where
  | next {t v : State} (status : t.status = v.status) (writes : SameWrites s t u v) : AnswersAlike s u (.next t) (.next v)
  | fault (f : Fault) : AnswersAlike s u (.fault f) (.fault f)

theorem AnswersAlike.next_iff {r r' : Result} (h : AnswersAlike s u r r') : (∃ t, r = .next t) ↔ ∃ v, r' = .next v := by
  cases h with
  | next => simp
  | fault => simp

/-- Two runs with the same writes that report the same code. -/
theorem SameWrites.alike_report (h : SameWrites s t u v) (c : StatusCode) :
    AnswersAlike s u (.next (t.report c)) (.next (v.report c)) :=
  .next rfl { h with }

theorem SameWrites.setResult (h : SameWrites s t u v) (x : Half) :
    SameWrites s { t with result := x } u { v with result := x } :=
  { h with result := .inl rfl }

theorem SameWrites.setFpos (h : SameWrites s t u v) (x : Half) :
    SameWrites s { t with fpos := x } u { v with fpos := x } :=
  { h with fpos := .inl rfl }

theorem SameWrites.setFlen (h : SameWrites s t u v) (x : Half) :
    SameWrites s { t with flen := x } u { v with flen := x } :=
  { h with flen := .inl rfl }

theorem SameWrites.alike_encodeFails (h : SameWrites s t u v) (c : StatusCode) :
    AnswersAlike s u (.next (encodeFails c t)) (.next (encodeFails c v)) :=
  .next rfl { h with olen := .inl rfl }

theorem SameWrites.alike_decodeRejects (h : SameWrites s t u v) (c : StatusCode) (nx : Nat) :
    AnswersAlike s u (.next (decodeRejects c nx t)) (.next (decodeRejects c nx v)) :=
  .next rfl { h with next := .inl rfl }

/-! ## DECODE, from runs that have written the same so far -/

/-- Accepting one candidate writes the same fields and payload. -/
theorem SameWrites.alike_decodeAccepts (h : SameWrites s t u v) (p : Nat) {C : List Byte} (hfits : (candLen C).toNat ≤ 8192) :
    AnswersAlike s u (decodeAccepts t p C) (decodeAccepts v p C) := by
  rw [decodeAccepts_fits hfits, decodeAccepts_fits hfits]
  exact .next rfl
    { h with hdrAddr := .inl rfl, hdrOp := .inl rfl, fcrc := .inl rfl, obuf := h.setAll_obuf (candPayload C),
             olen := .inl rfl, next := .inl rfl }

/-- The checks of a candidate read its window alone. -/
theorem SameWrites.alike_decodeFramed (h : SameWrites s t u v) (p : Nat) (C : List Byte) :
    AnswersAlike s u (decodeFramed t p C) (decodeFramed v p C) := by
  unfold decodeFramed
  dsimp only
  split_ifs
  case neg _ hmax _ _ _ _ => exact h.alike_decodeAccepts p (Nat.le_of_not_lt hmax)
  all_goals exact h.alike_decodeRejects _ _

theorem SameWrites.alike_decodeCandidate (h : SameWrites s t u v) (p : Nat) (C : List Byte) :
    AnswersAlike s u (decodeCandidate t p C) (decodeCandidate v p C) := by
  unfold decodeCandidate
  split_ifs
  · exact (h.setFlen _).alike_decodeRejects _ _
  · exact (h.setFlen _).alike_decodeFramed p C

end

section
variable {i : Instr} {s u : State}

/-- DECODE of one window reads START and ILEN besides. -/
theorem decodeWindow_alike (hstart : s.start = u.start) (hilen : s.ilen = u.ilen) (W : List Byte) :
    AnswersAlike s u (decodeWindow s W) (decodeWindow u W) := by
  have hkept := SameWrites.refl s u
  have hlo : s.start.toNat = u.start.toNat := congrArg BitVec.toNat hstart
  have hnext : noSyncNext s W = noSyncNext u W := by rw [noSyncNext, noSyncNext, hilen]
  unfold decodeWindow decodeNoSync
  rw [hlo, hnext]
  split
  · exact .next rfl { hkept with fpos := .inl rfl, next := .inl rfl, flen := .inl rfl }
  · exact (hkept.setFpos _).alike_decodeCandidate _ _

/-! ## ENCODE -/

/-- Writing the frame of one payload reads HDR_ADDR and HDR_OP besides. -/
theorem encodeWrites_alike (haddr : s.hdrAddr = u.hdrAddr) (hop : s.hdrOp = u.hdrOp) (hdr : Byte) {P : List Byte}
    (hfits : 12 + P.length ≤ 8192) : AnswersAlike s u (encodeWrites s hdr P) (encodeWrites u hdr P) := by
  have hkept := SameWrites.refl s u
  have hbody : frameBody s.hdrAddr (opcodeField s.hdrOp) hdr P = frameBody u.hdrAddr (opcodeField u.hdrOp) hdr P := by
    rw [haddr, hop]
  rw [encodeWrites_fits hfits, encodeWrites_fits hfits, hbody]
  exact .next rfl
    { hkept with obuf := hkept.setAll_obuf _, olen := .inl rfl, flen := .inl rfl, fcrc := .inl rfl,
                 result := .inl rfl }

/-- ENCODE of one payload reads HDR_ADDR and HDR_OP besides. -/
theorem encodePayload_alike (haddr : s.hdrAddr = u.hdrAddr) (hop : s.hdrOp = u.hdrOp) (P : List Byte) :
    AnswersAlike s u (encodePayload s P) (encodePayload u P) := by
  have hkept := SameWrites.refl s u
  have hpreset : presetField s.hdrOp = presetField u.hdrOp := congrArg presetField hop
  have hheader : encodeHeader s P = encodeHeader u P := by rw [encodeHeader, haddr, hop]
  unfold encodePayload
  rw [hpreset]
  split_ifs with hsub hlong hesc
  · exact hkept.alike_encodeFails _
  · exact hkept.alike_encodeFails _
  · exact (hkept.setResult _).alike_encodeFails _
  · change AnswersAlike s u (encodeWrites s (encodeHeader s P) P) (encodeWrites u (encodeHeader u P) P)
    rw [hheader]
    exact encodeWrites_alike haddr hop _ (Nat.le_of_not_lt hlong)

/-! ## The input range -/

/-- Buffers that agree on a range are read alike. -/
theorem Memory.getAll_congr {m m' : Memory} {lo n : Nat}
    (h : ∀ a, lo ≤ a → a < lo + n → Memory.get? m a = Memory.get? m' a) :
    Memory.getAll m lo n = Memory.getAll m' lo n := by
  induction n generalizing lo with
  | zero => rfl
  | succ n ih =>
    rw [Memory.getAll, Memory.getAll, h lo (by omega) (by omega), ih fun a hlo hhi => h a (by omega) (by omega)]

theorem memRead_congr {m m' : Memory} {lo n : Nat}
    (h : ∀ a, lo ≤ a → a < lo + n → Memory.get? m a = Memory.get? m' a) : memRead m lo n = memRead m' lo n := by
  rw [memRead, memRead, Memory.getAll_congr h]

/-- A command over the input range reads START, ILEN and the bytes of the range, and then what its two ways on read. -/
theorem withRange_alike {a b : State} {go go' : List Byte → Result} (h : ReadSetAgrees i s u) (hi : usesRange i = true)
    (harg : AnswersAlike s u (.next a) (.next b)) (hgo : ∀ S, AnswersAlike s u (go S) (go' S)) :
    AnswersAlike s u (withRange s a go) (withRange u b go') := by
  have hread : memRead s.ibuf s.start.toNat (s.ilen.toNat - s.start.toNat) =
      memRead u.ibuf s.start.toNat (s.ilen.toNat - s.start.toNat) :=
    memRead_congr fun a hlo hhi => h.input hi a hlo (by omega)
  unfold withRange rangeOk
  rw [← h.start hi, ← h.ilen hi, ← hread]
  split_ifs
  · split
    · exact .fault _
    · exact hgo _
  · exact harg

/-! ## Every command -/

/-- From two states that agree on its read set a command answers alike. -/
theorem exec_alike (h : ReadSetAgrees i s u) : AnswersAlike s u (exec i s) (exec i u) := by
  have hkept := SameWrites.refl s u
  cases i with
  | nop => exact hkept.alike_report .ok
  | crcInit seed => exact .next rfl { hkept with crc := .inl rfl }
  | crcByte b =>
    have hcrc : s.crc = u.crc := h.crc (.inr ⟨b, rfl⟩)
    exact .next rfl { hkept with crc := .inl (congrArg (crcStep · b) hcrc) }
  | crcBuf =>
    have hcrc : s.crc = u.crc := h.crc (.inl rfl)
    exact withRange_alike h rfl (hkept.alike_report .errArg) fun S =>
      .next rfl { hkept with crc := .inl (congrArg (crc16 · S) hcrc) }
  | crcTab idx => exact (hkept.setResult _).alike_report .ok
  | escCount =>
    exact withRange_alike h rfl (hkept.alike_report .errArg) fun S => (hkept.setResult _).alike_report .ok
  | encode =>
    exact withRange_alike h rfl (hkept.alike_encodeFails .errArg) (encodePayload_alike (h.hdrAddr rfl) (h.hdrOp rfl))
  | decode =>
    exact withRange_alike h rfl (hkept.alike_report .errArg) (decodeWindow_alike (h.start rfl) (h.ilen rfl))

end

/-- Settles O41: the two answers are alike. -/
theorem commandsReadOnlyTheirReadSet : Obligations.CommandsReadOnlyTheirReadSet := by
  intro i s u hagree
  have halike := exec_alike hagree
  refine ⟨halike.next_iff, fun t v ht hv => ?_⟩
  rw [ht, hv] at halike
  obtain ⟨hstatus, w⟩ := halike
  exact ⟨hstatus, w.crc, w.hdrAddr, w.hdrOp, w.olen, w.fpos, w.next, w.flen, w.fcrc, w.result, w.obuf⟩

end Sys2Proof.Machine
end

section
/-! PROOFS. The command decoder by the numbers of a word: its code, its reserved byte and its immediate (30_encoding.md
R67 to R71), and what issuing an illegal or a reserved word does. -/

namespace Sys2Proof

/-! ## The layout of a command -/

/-- The OPC of a command (the table of R69). -/
def Instr.opcode : Instr → Nat
  | .nop => 0
  | .crcInit _ => 1
  | .crcByte _ => 2
  | .crcBuf => 3
  | .crcTab _ => 4
  | .escCount => 5
  | .encode => 6
  | .decode => 7

/-- The IMM field of a command as a number (R68): 0 where the command takes no immediate. -/
def Instr.immediate : Instr → Nat
  | .crcInit seed => seed.toNat
  | .crcByte b => b.toNat
  | .crcTab idx => idx.toNat
  | .nop | .crcBuf | .escCount | .encode | .decode => 0

/-- The IMM values of a legal OPC are the numbers below this one (R68). -/
def immBound (opc : Nat) : Nat :=
  if opc = 1 then 65536 else if opc = 2 ∨ opc = 4 then 256 else 1

theorem Instr.immediate_lt (i : Instr) : i.immediate < immBound i.opcode := by
  cases i with
  | crcInit seed => exact seed.isLt
  | crcByte b => exact b.isLt
  | crcTab idx => exact idx.isLt
  | nop | crcBuf | escCount | encode | decode => exact Nat.one_pos

theorem Instr.opcode_lt (i : Instr) : i.opcode < 8 := by
  cases i <;> simp [opcode]

/-! ## The code and the immediate -/

/-- A code of 8 or more names no command (R71). -/
theorem commandOf_eq_none {w : Word} : commandOf w = none ↔ 8 ≤ w.toNat % 256 := by
  unfold commandOf
  rw [opcField_toNat]
  split
  case h_9 => simp only [imp_false, true_iff] at *; omega
  all_goals simp only [reduceCtorEq, false_iff]; omega

/-- Of a legal code the decoder reads the command with that code and with the low part of IMM as its immediate. -/
theorem commandOf_eq_some {w : Word} {i : Instr} :
    commandOf w = some i ↔ w.toNat % 256 = i.opcode ∧ w.toNat / 65536 % immBound i.opcode = i.immediate := by
  have hw := w.isLt
  constructor
  · intro h
    unfold commandOf at h
    rw [opcField_toNat] at h
    split at h <;> cases h
    case h_2 hopc => 
      have hlt : w.toNat / 65536 < 65536 := by omega
      exact ⟨hopc, (Nat.mod_eq_of_lt hlt).trans (immField_toNat w).symm⟩
    case h_3 hopc => exact ⟨hopc, (immLowField_toNat w).symm⟩
    case h_5 hopc => exact ⟨hopc, (immLowField_toNat w).symm⟩
    all_goals exact ⟨‹_›, Nat.mod_one _⟩
  · rintro ⟨hopc, himm⟩
    rw [commandOf, opcField_toNat, hopc]
    cases i with
    | crcInit seed =>
      have hseed : immField w = seed := BitVec.eq_of_toNat_eq (by
        rw [immField_toNat, ← Nat.mod_eq_of_lt (show w.toNat / 65536 < 65536 by omega)]; exact himm)
      exact congrArg (fun v => some (Instr.crcInit v)) hseed
    | crcByte b =>
      have hb : immLowField w = b := BitVec.eq_of_toNat_eq ((immLowField_toNat w).trans himm)
      exact congrArg (fun v => some (Instr.crcByte v)) hb
    | crcTab idx =>
      have hidx : immLowField w = idx := BitVec.eq_of_toNat_eq ((immLowField_toNat w).trans himm)
      exact congrArg (fun v => some (Instr.crcTab v)) hidx
    | nop | crcBuf | escCount | encode | decode => rfl

/-! ## The must-be-zero bits -/

/-- The bits of a word under a mask of `k` bits from bit `j` on are 0 exactly when that field of its number is. -/
theorem and_fieldMask_eq_zero {w m : Word} {j k : Nat} (hm : m.toNat = (2 ^ k - 1) <<< j) :
    w &&& m = 0#32 ↔ w.toNat / 2 ^ j % 2 ^ k = 0 := by
  have hfield : w.toNat &&& m.toNat = (w.toNat / 2 ^ j % 2 ^ k) <<< j := by
    rw [hm, ← Nat.and_two_pow_sub_one_eq_mod, ← Nat.shiftRight_eq_div_pow]
    apply Nat.eq_of_testBit_eq
    intro n
    by_cases hn : j ≤ n
    · simp [Nat.testBit_shiftLeft, Nat.testBit_shiftRight, hn, Bool.and_comm]
    · simp [Nat.testBit_shiftLeft, hn]
  rw [← BitVec.toNat_inj, BitVec.toNat_and, hfield, Nat.shiftLeft_eq]
  simp

/-- `mbz_mask(opc)` of R70 by the code as a number. -/
theorem mbzMask_opcField (w : Word) : mbzMask (opcField w) =
    if w.toNat % 256 = 1 then 0x0000FF00#32
    else if w.toNat % 256 = 2 ∨ w.toNat % 256 = 4 then 0xFF00FF00#32 else 0xFFFFFF00#32 := by
  have hopc (b : Byte) : opcField w = b ↔ w.toNat % 256 = b.toNat := by rw [← BitVec.toNat_inj, opcField_toNat]
  simp only [mbzMask, hopc, BitVec.toNat_ofNat, Nat.reducePow, Nat.reduceMod]

/-- The must-be-zero bits of a word are 0 exactly when its reserved byte is 0 and its IMM is in the bound of its code. -/
theorem and_mbzMask_eq_zero (w : Word) : w &&& mbzMask (opcField w) = 0#32 ↔
    w.toNat / 256 % 256 = 0 ∧ w.toNat / 65536 < immBound (w.toNat % 256) := by
  have hw := w.isLt
  rw [mbzMask_opcField, immBound]
  split_ifs
  · rw [and_fieldMask_eq_zero (j := 8) (k := 8) rfl]; omega
  · rw [show 0xFF00FF00#32 = 0x0000FF00#32 ||| 0xFF000000#32 by decide, BitVec.and_or_distrib_left, BitVec.or_eq_zero_iff,
      and_fieldMask_eq_zero (j := 8) (k := 8) rfl, and_fieldMask_eq_zero (j := 24) (k := 8) rfl]
    omega
  · rw [and_fieldMask_eq_zero (j := 8) (k := 24) rfl]; omega

/-! ## The outcomes of the decoder -/

/-- A word decodes to a command exactly when it has the command's code, nothing in RSV, and the command's IMM. -/
theorem decode_eq_command_iff_fields {w : Word} {i : Instr} : decode w = .command i ↔
    w.toNat % 256 = i.opcode ∧ w.toNat / 256 % 256 = 0 ∧ w.toNat / 65536 = i.immediate := by
  rw [decode_eq_command, commandOf_eq_some, and_mbzMask_eq_zero]
  constructor
  · rintro ⟨⟨hopc, himm⟩, hrsv, hlt⟩
    rw [hopc] at hlt
    exact ⟨hopc, hrsv, by rwa [Nat.mod_eq_of_lt hlt] at himm⟩
  · rintro ⟨hopc, hrsv, himm⟩
    have hlt : w.toNat / 65536 < immBound i.opcode := by rw [himm]; exact i.immediate_lt
    exact ⟨⟨hopc, by rwa [Nat.mod_eq_of_lt hlt]⟩, hrsv, by rwa [hopc]⟩

/-- A word is illegal exactly when its code is 8 or more (R71). -/
theorem decode_eq_illegal {w : Word} : decode w = .illegal ↔ 8 ≤ w.toNat % 256 := by
  rw [← commandOf_eq_none, decode]
  cases commandOf w with
  | none => simp
  | some i => simp only [reduceCtorEq, iff_false]; split <;> simp

/-- A word is reserved exactly when its code is legal and a must-be-zero bit of it is set (R71). -/
theorem decode_eq_reserved {w : Word} :
    decode w = .reserved ↔ w.toNat % 256 < 8 ∧ w &&& mbzMask (opcField w) ≠ 0#32 := by
  rw [← Nat.not_le, ← commandOf_eq_none, decode]
  cases commandOf w with
  | none => simp
  | some i => simp

end Sys2Proof

namespace Sys2Proof.Machine

/-- Settles O2: each clause is the decoder's reading of one command by its fields. -/
theorem decoderReadsEveryCommand : Obligations.DecoderReadsEveryCommand := fun _ =>
  ⟨decode_eq_command_iff_fields, fun _ => decode_eq_command_iff_fields, fun _ => decode_eq_command_iff_fields,
    decode_eq_command_iff_fields, fun _ => decode_eq_command_iff_fields, decode_eq_command_iff_fields,
    decode_eq_command_iff_fields, decode_eq_command_iff_fields⟩

theorem issue_illegal {w : Word} (s : State) (h : decode w = .illegal) : issue w s = .next (s.report .errIllegal) := by
  rw [issue, h]

theorem issue_reserved {w : Word} (s : State) (h : decode w = .reserved) : issue w s = .next (s.report .errReserved) := by
  rw [issue, h]

/-- Settles O6: the word of the first clause decodes as illegal, that of the second as reserved, and issuing either only
reports. -/
theorem illegalAndReservedWordsOnlyReport : Obligations.IllegalAndReservedWordsOnlyReport := by
  intro s w
  refine ⟨fun hopc => issue_illegal _ (decode_eq_illegal.2 hopc), fun h => issue_reserved _ (decode_eq_reserved.2 ?_)⟩
  rw [mbzMask_opcField]
  rcases h with ⟨hopc, hmask⟩ | ⟨hopc, hmask⟩ | ⟨hopc, hmask⟩
  · exact ⟨by omega, by rwa [if_pos hopc]⟩
  · exact ⟨by omega, by rwa [if_neg (by omega), if_pos hopc]⟩
  · exact ⟨by omega, by rwa [if_neg (by omega), if_neg (by omega)]⟩

end Sys2Proof.Machine
end

section
/-! PROOFS. ENCODE: the outcome of its checks over a readable range (41_escape_codec.md R103), and the frame of
30_encoding.md R60 that a successful one leaves in OBUF, byte by byte. -/

namespace Sys2Proof.Machine

/-! ## Fields as numbers -/

theorem hi8_eq_ofNat (v : Half) : hi8 v = BitVec.ofNat 8 (v.toNat / 256) :=
  BitVec.eq_of_toNat_eq (by rw [hi8_toNat, BitVec.toNat_ofNat]; omega)

theorem lo8_eq_ofNat (v : Half) : lo8 v = BitVec.ofNat 8 v.toNat :=
  BitVec.eq_of_toNat_eq (by rw [lo8_toNat, BitVec.toNat_ofNat])

theorem opcodeField_eq_ofNat (v : Half) : opcodeField v = BitVec.ofNat 8 (v.toNat / 256) := hi8_eq_ofNat v

theorem hi8_ofNat {n : Nat} (h : n < 65536) : hi8 (BitVec.ofNat 16 n) = BitVec.ofNat 8 (n / 256) := by
  rw [hi8_eq_ofNat, BitVec.toNat_ofNat, Nat.mod_eq_of_lt h]

theorem lo8_ofNat {n : Nat} (h : n < 65536) : lo8 (BitVec.ofNat 16 n) = BitVec.ofNat 8 n := by
  rw [lo8_eq_ofNat, BitVec.toNat_ofNat, Nat.mod_eq_of_lt h]

theorem senderField_toNat (a : Word) : (senderField a).toNat = a.toNat / 2 ^ 16 := by
  have ha := a.isLt
  simp only [senderField, BitVec.extractLsb'_toNat, Nat.shiftRight_eq_div_pow]
  omega

theorem receiverField_toNat (a : Word) : (receiverField a).toNat = a.toNat % 2 ^ 16 := by
  simp [receiverField, BitVec.extractLsb'_toNat]

theorem hi8_senderField (a : Word) : hi8 (senderField a) = BitVec.ofNat 8 (a.toNat / 2 ^ 24) := by
  rw [hi8_eq_ofNat, senderField_toNat, Nat.div_div_eq_div_mul]; rfl

theorem lo8_senderField (a : Word) : lo8 (senderField a) = BitVec.ofNat 8 (a.toNat / 2 ^ 16) := by
  rw [lo8_eq_ofNat, senderField_toNat]

theorem hi8_receiverField (a : Word) : hi8 (receiverField a) = BitVec.ofNat 8 (a.toNat / 2 ^ 8) :=
  BitVec.eq_of_toNat_eq (by rw [hi8_toNat, receiverField_toNat, BitVec.toNat_ofNat]; omega)

theorem lo8_receiverField (a : Word) : lo8 (receiverField a) = BitVec.ofNat 8 a.toNat :=
  BitVec.eq_of_toNat_eq (by rw [lo8_toNat, receiverField_toNat, BitVec.toNat_ofNat]; omega)

/-- E and SUB stand side by side in the header byte (30_encoding.md R63). -/
theorem headerByte_eq_ofNat {e : Nat} (h : e ≤ 7) (v : Half) :
    headerByte e (subField v) = BitVec.ofNat 8 (e * 16 + v.toNat % 16) := by
  have hsub : v.toNat % 2 ^ 4 < 2 ^ 4 := Nat.mod_lt _ (by decide)
  apply BitVec.eq_of_toNat_eq
  simp only [headerByte, subField, BitVec.toNat_or, BitVec.toNat_shiftLeft, BitVec.toNat_ofNat, BitVec.toNat_setWidth,
    BitVec.extractLsb'_toNat, Nat.shiftRight_zero]
  rw [Nat.mod_eq_of_lt (show e < 2 ^ 8 by omega), Nat.shiftLeft_eq, Nat.mod_eq_of_lt (show e * 2 ^ 4 < 2 ^ 8 by omega),
    Nat.mod_eq_of_lt (show v.toNat % 2 ^ 4 < 2 ^ 8 by omega), Nat.mul_comm, ← Nat.two_pow_add_eq_or_of_lt hsub]
  omega

/-! ## The parts of a frame -/

/-- The nine bytes of a frame before its header byte (30_encoding.md R60), for a payload of `n` bytes. -/
def frameHead (addr : Word) (opcode : Byte) (n : Nat) : List Byte :=
  [Config.sync, Config.sync, hi8 (BitVec.ofNat 16 (12 + n)), lo8 (BitVec.ofNat 16 (12 + n)),
   hi8 (senderField addr), lo8 (senderField addr), hi8 (receiverField addr), lo8 (receiverField addr), opcode]

/-- Only the header byte stands between the nine bytes and the payload. -/
theorem frameBody_eq (addr : Word) (opcode h : Byte) (P : List Byte) :
    frameBody addr opcode h P = frameHead addr opcode P.length ++ [h] ++ P := rfl

/-- The nine bytes by the numbers in LENGTH, HDR_ADDR and HDR_OP. -/
theorem frameHead_eq (addr : Word) (v : Half) {n : Nat} (hn : 12 + n ≤ 8192) : frameHead addr (opcodeField v) n =
    [0xA5#8, 0xA5#8, BitVec.ofNat 8 ((12 + n) / 256), BitVec.ofNat 8 (12 + n), BitVec.ofNat 8 (addr.toNat / 2 ^ 24),
     BitVec.ofNat 8 (addr.toNat / 2 ^ 16), BitVec.ofNat 8 (addr.toNat / 2 ^ 8), BitVec.ofNat 8 addr.toNat,
     BitVec.ofNat 8 (v.toNat / 256)] := by
  rw [frameHead, hi8_ofNat (by omega), lo8_ofNat (by omega), hi8_senderField, lo8_senderField, hi8_receiverField,
    lo8_receiverField, opcodeField_eq_ofNat]

/-! ## What a successful ENCODE leaves in OBUF -/

section
variable (s : State) (h : Byte) (P : List Byte)

theorem encodeSucceeds_get? (j : Nat) : Memory.get? (encodeSucceeds s h P).obuf j =
    if j < 12 + P.length then (closeFrame (frameBody s.hdrAddr (opcodeField s.hdrOp) h P))[j]?
    else Memory.get? s.obuf j := by
  rw [encodeSucceeds_obuf, Memory.get?_setAll, closeFrame_length, frameBody_length]
  simp only [Nat.zero_le, true_and, Nat.zero_add, Nat.sub_zero]
  rw [show 10 + P.length + 2 = 12 + P.length by omega]

/-- The ten header bytes. -/
theorem encodeSucceeds_get?_head {j : Nat} (hj : j < 10) : Memory.get? (encodeSucceeds s h P).obuf j =
    (frameHead s.hdrAddr (opcodeField s.hdrOp) P.length ++ [h])[j]? := by
  rw [encodeSucceeds_get?, if_pos (by omega), closeFrame, frameBody_eq, List.append_assoc, List.getElem?_append_left hj]

theorem encodeSucceeds_get?_payload {k : Nat} (hk : k < P.length) :
    Memory.get? (encodeSucceeds s h P).obuf (10 + k) = P[k]? := by
  rw [encodeSucceeds_get?, if_pos (by omega), closeFrame, List.getElem?_append_left (by rw [frameBody_length]; omega),
    frameBody_eq, List.getElem?_append_right (Nat.le_add_right 10 k)]
  exact congrArg (P[·]?) (Nat.add_sub_cancel_left 10 k)

/-- The two bytes of the CRC field. -/
theorem encodeSucceeds_get?_crc {k : Nat} (hk : k < 2) : Memory.get? (encodeSucceeds s h P).obuf (10 + P.length + k) =
    [hi8 (encodeSucceeds s h P).fcrc, lo8 (encodeSucceeds s h P).fcrc][k]? := by
  rw [encodeSucceeds_get?, if_pos (by omega), closeFrame, List.getElem?_append_right (by rw [frameBody_length]; omega),
    frameBody_length, Nat.add_sub_cancel_left, encodeSucceeds_fcrc]

/-- The bytes before the CRC field. -/
theorem encodeSucceeds_body {n : Nat} (hn : n ≤ 10 + P.length) : bytesAt (encodeSucceeds s h P).obuf 0 n =
    (frameBody s.hdrAddr (opcodeField s.hdrOp) h P).take n := by
  rw [encodeSucceeds_obuf, bytesAt_setAll_zero _ _ (by rw [closeFrame_length, frameBody_length]; omega), closeFrame,
    List.take_append_of_le_length (by rw [frameBody_length]; exact hn)]

/-- With another header byte in place of its own, the bytes before the CRC field are the body with that header byte. -/
theorem encodeSucceeds_body_withHeader (h₀ : Byte) :
    bytesAt (encodeSucceeds s h P).obuf 0 9 ++ [h₀] ++ bytesAt (encodeSucceeds s h P).obuf 10 (10 + P.length) =
      frameBody s.hdrAddr (opcodeField s.hdrOp) h₀ P := by
  have hhead : bytesAt (encodeSucceeds s h P).obuf 0 9 = frameHead s.hdrAddr (opcodeField s.hdrOp) P.length := by
    rw [encodeSucceeds_body s h P (by omega)]; rfl
  have hpayload : bytesAt (encodeSucceeds s h P).obuf 10 (10 + P.length) = P := by
    have hdrop := bytesAt_drop (encodeSucceeds s h P).obuf 0 (10 + P.length) 10
    rw [encodeSucceeds_body s h P le_rfl] at hdrop
    rw [← hdrop, ← frameBody_length s.hdrAddr (opcodeField s.hdrOp) h P, List.take_length]; rfl
  rw [hhead, hpayload, frameBody_eq]

end

/-! ## ENCODE over a readable range -/

/-- The header byte before disambiguation, over a range with at most 7 pairs. -/
theorem headerByte_eq_plainHeader {s : State} (hr : RangeReadable s) (hp : rangePairs s ≤ 7) :
    headerByte (esc (rangeBytes s)) (subField s.hdrOp) = plainHeader s := by
  rw [esc_bytesAt hr.2]
  exact headerByte_eq_ofNat hp s.hdrOp

/-- A successful ENCODE leaves the frame of its input range (R60, R104). -/
theorem encodeSucceeds_frame {s : State} (hfits : EncodeFits s) :
    EncodedFrame s (encodeSucceeds s (encodeHeader s (rangeBytes s)) (rangeBytes s)).obuf (encodeHeader s (rangeBytes s))
      (encodeSucceeds s (encodeHeader s (rangeBytes s)) (rangeBytes s)).fcrc := by
  obtain ⟨hr, -, hlen, hpairs⟩ := hfits
  have hn : (rangeBytes s).length = rangeLength s := bytesAt_length ..
  have hdisamb : encodeHeader s (rangeBytes s) =
      if frameCrc (frameBody s.hdrAddr (opcodeField s.hdrOp) (plainHeader s) (rangeBytes s)) = Config.sync16
      then plainHeader s ||| dFlag else plainHeader s := by
    rw [encodeHeader, headerByte_eq_plainHeader hr hpairs, finalHeader]
  generalize encodeHeader s (rangeBytes s) = h at hdisamb
  have head (j : Nat) (hj : j < 10) := encodeSucceeds_get?_head s h (rangeBytes s) hj
  have crc (k : Nat) (hk : k < 2) := encodeSucceeds_get?_crc s h (rangeBytes s) hk
  rw [hn, frameHead_eq _ _ hlen] at head
  rw [hn, hi8_eq_ofNat, lo8_eq_ofNat] at crc
  exact
  { sync0 := head 0 (by decide)
    sync1 := head 1 (by decide)
    lengthHi := head 2 (by decide)
    lengthLo := head 3 (by decide)
    senderHi := head 4 (by decide)
    senderLo := head 5 (by decide)
    receiverHi := head 6 (by decide)
    receiverLo := head 7 (by decide)
    opcode := head 8 (by decide)
    header := head 9 (by decide)
    payload := fun k hk => by
      rw [rangeLength] at hk
      rw [encodeSucceeds_get?_payload s h (rangeBytes s) (by rw [hn]; exact hk), bytesAt_getElem?, if_pos (by omega),
        get?_eq_byteAt (hr.2 _ (by omega) (by omega))]
    crcHi := crc 0 (by decide)
    crcLo := by
      rw [Nat.add_right_comm 10 1]
      exact crc 1 (by decide)
    beyond := fun j hj => by rw [encodeSucceeds_get?, hn, if_neg (by omega)]
    crcCovers := by
      rw [encodeSucceeds_body s h (rangeBytes s) (by rw [hn]), List.take_of_length_le (by rw [frameBody_length, hn])]; rfl
    disambiguated := by
      rw [← hn, encodeSucceeds_body_withHeader]
      exact hdisamb }

/-- ENCODE over a readable range: the checks of R103 in their order, then the frame. -/
theorem execEncode_readable {s : State} (hr : RangeReadable s) : exec .encode s =
    if s.hdrOp.toNat / 16 % 16 ≠ 0 then .next (encodeFails .encSubopRange s)
    else if 8192 < 12 + rangeLength s then .next (encodeFails .encTooLong s)
    else if 7 < rangePairs s then .next (encodeFails .encEscOverflow { s with result := BitVec.ofNat 16 (rangePairs s) })
    else .next (encodeSucceeds s (encodeHeader s (rangeBytes s)) (rangeBytes s)) := by
  have hread : exec .encode s = encodePayload s (rangeBytes s) := withRange_readable hr
  have hlength : (rangeBytes s).length = rangeLength s := bytesAt_length ..
  have hpairs : esc (rangeBytes s) = rangePairs s := esc_bytesAt hr.2
  rw [hread, ← hlength, ← hpairs]
  rcases encodePayload_cases s (rangeBytes s) with
    ⟨hsub, hx⟩ | ⟨hsub, hlong, hx⟩ | ⟨hsub, hlen, hesc, hx⟩ | ⟨hsub, hlen, hesc, hx⟩ <;> rw [hx]
  · rw [if_pos (presetField_eq_zero.not.1 hsub)]
  · rw [if_neg (not_not.2 (presetField_eq_zero.1 hsub)), if_pos hlong]
  · rw [if_neg (not_not.2 (presetField_eq_zero.1 hsub)), if_neg hlen.not_gt, if_pos hesc]
  · rw [if_neg (not_not.2 (presetField_eq_zero.1 hsub)), if_neg hlen.not_gt, if_neg hesc.not_gt,
      encodeWrites_fits hlen]; rfl

/-- Settles O22: the range decides the first two clauses, the checks over a readable range the next three, and a range that
passes them all leaves its frame. -/
theorem encodeBuildsFrame : Obligations.EncodeBuildsFrame := by
  refine ⟨decode_eq_command_iff_fields.2 (by decide), fun s => ⟨fun hv => withRange_invalid hv, fun hv hr => ?_,
    fun hr hsub => ?_, fun hr hsub hlong => ?_, fun hr hsub hlen hesc => ?_, fun hfits => ?_⟩⟩
  · rcases withRange_cases s (encodeFails .errArg s) (encodePayload s) with ⟨hbad, -⟩ | ⟨-, -, hx⟩ | ⟨hread, -⟩
    · exact absurd hv hbad
    · exact hx
    · exact absurd hread hr
  · rw [execEncode_readable hr, if_pos hsub]; rfl
  · rw [execEncode_readable hr, if_neg (not_not.2 hsub), if_pos hlong]; rfl
  · rw [execEncode_readable hr, if_neg (not_not.2 hsub), if_neg hlen.not_gt, if_pos hesc]; rfl
  · refine ⟨_, _, _, encodeSucceeds_frame hfits, ?_⟩
    rw [execEncode_readable hfits.readable, if_neg (not_not.2 hfits.subFits), if_neg hfits.frameFits.not_gt,
      if_neg hfits.pairsFit.not_gt, encodeSucceeds, bytesAt_length]
    rfl

end Sys2Proof.Machine
end

section
/-! PROOFS. NOP and the CRC generator commands (40_crc.md R80 to R89, 41_escape_codec.md R100): the listed table is the one
eight reflected shifts construct, and CRC_BUF is the fold of the update over the input range. -/

namespace Sys2Proof

/-! ## Command words with an immediate -/

/-- A word with the IMM of a command above its OPC, the reserved byte 0, is that command's (R67, R68). -/
theorem decode_append {i : Instr} {imm opc : Half} (hopc : opc.toNat = i.opcode) (himm : imm.toNat = i.immediate) :
    decode (imm ++ opc) = .command i := by
  have hlt := i.opcode_lt
  have hword : (imm ++ opc : Word).toNat = i.immediate * 65536 + i.opcode := by
    rw [BitVec.toNat_append, ← Nat.shiftLeft_add_eq_or_of_lt opc.isLt, Nat.shiftLeft_eq, hopc, himm]
  rw [decode_eq_command_iff_fields, hword]
  omega

/-- A byte in the low half of IMM, the upper half 0 (R68). -/
theorem toNat_zero_append (b : Byte) : (0x00#8 ++ b).toNat = b.toNat := by
  rw [BitVec.toNat_append]; simp

end Sys2Proof

namespace Sys2Proof.Machine

/-! ## NOP and CRC_INIT -/

/-- Settles O13: both meanings are one report; the words by their fields. -/
theorem nopAndCrcInitComplete : Obligations.NopAndCrcInitComplete :=
  ⟨decode_eq_command_iff_fields.2 (by decide), fun _ => decode_append rfl rfl, fun _ => ⟨rfl, fun _ => rfl⟩⟩

/-! ## The table and the update -/

/-- R80's listing is its construction: entry `i` is eight shifts of `i`. All 256 listed constants are compared, by the
kernel: the elaborator's own evaluation passes its recursion limit on them. -/
theorem crcTable_eq_map : crcTable = (List.range 256).map fun i => crcShift8 (BitVec.ofNat 16 i) := by decide +kernel

theorem crcTab_eq_crcShift8 (i : Byte) : crcTab i = crcShift8 (i.setWidth 16) := by
  rw [crcTab, crcTable_eq_map, List.getD_eq_getElem?_getD, List.getElem?_map, List.getElem?_range i.isLt]
  exact congrArg crcShift8 (BitVec.ofNat_toNat 16 i)

/-- R81's table index `(c ^ b) & 0xFF` at the width of the accumulator. -/
theorem setWidth_lo8_xor (c : Half) (b : Byte) :
    (lo8 c ^^^ b).setWidth 16 = (c ^^^ b.setWidth 16) &&& 0x00FF#16 := by
  have hmask : ∀ k, (hk : k < 16) → (0x00FF#16)[k] = decide (k < 8) := by decide
  ext k hk
  by_cases hbyte : k < 8
  · simp [lo8, hmask k hk, hbyte, BitVec.getLsbD_eq_getElem hk]
  · simp [lo8, hmask k hk, hbyte, BitVec.getLsbD_of_ge b k (by omega)]

/-- The update with the constructed table in place of the listed one. -/
theorem crcStep_eq_crcShift8 (c : Half) (b : Byte) :
    crcStep c b = (c >>> 8) ^^^ crcShift8 ((c ^^^ b.setWidth 16) &&& 0x00FF#16) := by
  rw [crcStep, crcTab_eq_crcShift8, setWidth_lo8_xor]

/-- Settles O14: CRC_TAB reads the listed entry, which is the constructed one. -/
theorem crcTabReadsConstructedTable : Obligations.CrcTabReadsConstructedTable := by
  intro idx s
  refine ⟨decode_append rfl (toNat_zero_append idx), ?_⟩
  rw [← crcTab_eq_crcShift8]
  rfl

/-- Settles O15: CRC_BYTE does one update, whose table is the constructed one. -/
theorem crcByteIsOneTableStep : Obligations.CrcByteIsOneTableStep := by
  intro b s
  refine ⟨decode_append rfl (toNat_zero_append b), ?_⟩
  rw [← crcStep_eq_crcShift8]
  rfl

/-! ## CRC_BUF -/

/-- A valid range that is not readable stops a command over it (20_memory.md R47). -/
theorem withRange_unreadable {s a : State} {go : List Byte → Result} (hv : RangeValid s) (hr : ¬ RangeReadable s) :
    withRange s a go = .fault .unwrittenRead := by
  rcases withRange_cases s a go with ⟨hbad, -⟩ | ⟨-, -, hx⟩ | ⟨hread, -⟩
  · exact absurd hv hbad
  · exact hx
  · exact absurd hread hr

theorem execCrcBuf_readable {s : State} (hr : RangeReadable s) :
    exec .crcBuf s = .next { s with crc := crc16 s.crc (rangeBytes s), status := 0x00#8 } :=
  withRange_readable hr

/-- The fold over a buffer range, by absolute index. -/
theorem crc16_bytesAt (c : Half) (m : Memory) (lo hi : Nat) : crc16 c (bytesAt m lo hi) =
    (List.range (hi - lo)).foldl (fun c k => crcStep c (byteAt m (lo + k))) c := by
  rw [crc16, bytesAt, List.range'_eq_map_range, List.map_map, List.foldl_map]
  rfl

/-- Settles O17: the three cases of the input range, the readable one by index. -/
theorem crcBufFoldsRange : Obligations.CrcBufFoldsRange := by
  refine ⟨decode_eq_command_iff_fields.2 (by decide), fun s => ⟨fun hv => withRange_invalid hv,
    withRange_unreadable, fun hr => ?_⟩⟩
  rw [execCrcBuf_readable hr, crc16_bytesAt]

/-- The ASCII bytes of `123456789` (R89). -/
def checkDigits : List Byte := [0x31#8, 0x32#8, 0x33#8, 0x34#8, 0x35#8, 0x36#8, 0x37#8, 0x38#8, 0x39#8]

theorem crc16_checkDigits_seed_zero : crc16 0x0000#16 checkDigits = 0xBB3D#16 := by decide

theorem crc16_checkDigits_seed_ones : crc16 0xFFFF#16 checkDigits = 0x4B37#16 := by decide

/-- Settles O20: CRC_BUF over a range that holds the digits folds them from CRC, which each clause fixes. -/
theorem crcCheckValues : Obligations.CrcCheckValues := by
  intro s hr (hbytes : rangeBytes s = checkDigits)
  rw [execCrcBuf_readable hr, hbytes]
  exact ⟨fun hseed => by rw [hseed, crc16_checkDigits_seed_zero],
    fun hseed => by rw [hseed, crc16_checkDigits_seed_ones]⟩

end Sys2Proof.Machine
end

section
/-! PROOFS. ESC_COUNT (41_escape_codec.md R101, R102), and every outcome of DECODE (R110 to R119) by absolute index:
`execDecode_candidate` says once what the checks of a candidate answer, and the statements about them read it off. -/

namespace Sys2Proof.Machine

/-! ## ESC_COUNT -/

/-- An input range holds at most 8191 sync pairs (R101). -/
theorem rangePairs_le {s : State} (hr : RangeReadable s) : rangePairs s ≤ 8191 := by
  obtain ⟨⟨-, hlen⟩, hw⟩ := hr
  have hesc := esc_le (rangeBytes s)
  rw [esc_bytesAt hw, bytesAt_length] at hesc
  rw [rangePairs]
  omega

theorem execEscCount_readable {s : State} (hr : RangeReadable s) :
    exec .escCount s = .next { s with result := BitVec.ofNat 16 (rangePairs s), status := 0x00#8 } := by
  rw [rangePairs, ← esc_bytesAt hr.2]
  exact withRange_readable hr

/-- Settles O21: the three cases of the input range; over a readable one the count by position is the count by index. -/
theorem escCountCountsPairs : Obligations.EscCountCountsPairs :=
  ⟨decode_eq_command_iff_fields.2 (by decide), fun _ => ⟨fun hv => withRange_invalid hv, withRange_unreadable,
    fun hr => ⟨rangePairs_le hr, execEscCount_readable hr⟩⟩⟩

/-! ## The fields of a candidate, by absolute index -/

theorem be16At_lt (m : Memory) (i : Nat) : be16At m i < 65536 := by
  have hhi := (byteAt m i).isLt
  have hlo := (byteAt m (i + 1)).isLt
  rw [be16At]
  omega

/-- Two neighbouring bytes of a candidate as one value (R110, R112). -/
theorem be16_candByte {m : Memory} {p hi k : Nat} (h : p + (k + 1) < hi) :
    be16 (candByte (bytesAt m p hi) k) (candByte (bytesAt m p hi) (k + 1)) = BitVec.ofNat 16 (be16At m (p + k)) := by
  have hlt := be16At_lt m (p + k)
  rw [candByte_bytesAt (by omega), candByte_bytesAt h]
  apply BitVec.eq_of_toNat_eq
  rw [be16_toNat, BitVec.toNat_ofNat, Nat.mod_eq_of_lt hlt]
  rfl

/-- Two 16-bit values side by side (10_state.md R17). -/
theorem ofNat_append_ofNat (a : Nat) {b : Nat} (hb : b < 65536) :
    (BitVec.ofNat 16 a ++ BitVec.ofNat 16 b : Word) = BitVec.ofNat 32 (a * 65536 + b) := by
  apply BitVec.eq_of_toNat_eq
  rw [BitVec.toNat_append, ← Nat.shiftLeft_add_eq_or_of_lt (BitVec.isLt _), Nat.shiftLeft_eq]
  simp only [BitVec.toNat_ofNat]
  omega

/-- E of a header byte as a number (30_encoding.md R63). -/
theorem escField_eq (h : Byte) : escField h = h.toNat / 16 % 8 := by
  simp [escField, BitVec.extractLsb'_toNat, Nat.shiftRight_eq_div_pow]

section
variable {s : State} {p len : Nat}

theorem Candidate.candLen_toNat (h : Candidate s p len) : (candLen (candidateBytes s p)).toNat = len := by
  rw [candLen_bytesAt h.envelope, h.declared]

theorem Candidate.candLen_eq (h : Candidate s p len) : candLen (candidateBytes s p) = BitVec.ofNat 16 len := by
  rw [← h.candLen_toNat, BitVec.ofNat_toNat, BitVec.setWidth_eq]

theorem Candidate.len_lt (h : Candidate s p len) : len < 65536 := by
  rw [h.declared]
  exact be16At_lt s.ibuf (p + 2)

theorem Candidate.escField_candHeader (h : Candidate s p len) :
    escField (candHeader (candidateBytes s p)) = escAt s.ibuf p := by
  have henv := h.envelope
  rw [candHeader, candByte_bytesAt (by omega), escField_eq, escAt]

/-- The payload region of R114, as far as the window reaches. -/
theorem Candidate.candPayload_eq (h : Candidate s p len) (hmin : 12 ≤ len) :
    candPayload (candidateBytes s p) = bytesAt s.ibuf (p + 10) (min (p + len - 2) s.ilen.toNat) := by
  rw [candPayload, h.candLen_toNat, bytesAt_drop, bytesAt_take, Config.hdrLen,
    show p + 10 + (len - 12) = p + len - 2 by omega]

/-- The bytes of the payload region are bytes of the window, so the pairs counted there are R114's k. -/
theorem Candidate.esc_candPayload (h : Candidate s p len) (hmin : 12 ≤ len) :
    esc (candPayload (candidateBytes s p)) = payloadPairs s p len := by
  have hstart := h.first.fromStart
  rw [h.candPayload_eq hmin, payloadPairs, esc_bytesAt]
  exact fun i hlo hhi => h.readable.2 i (by omega) (by omega)

/-- The trailing CRC field of a complete candidate (R116). -/
theorem Candidate.candCrc_eq (h : Candidate s p len) (hmin : 12 ≤ len) (hfits : p + len ≤ s.ilen.toNat) :
    candCrc (candidateBytes s p) = BitVec.ofNat 16 (be16At s.ibuf (p + len - 2)) := by
  rw [candCrc, h.candLen_toNat, show len - 1 = len - 2 + 1 by omega, be16_candByte (by omega),
    Nat.add_sub_assoc (by omega)]

/-- The check of R116 compares two values. -/
theorem Candidate.crcAgrees_iff (h : Candidate s p len) (hmin : 12 ≤ len) (hfits : p + len ≤ s.ilen.toNat) :
    frameCrc ((candidateBytes s p).take (len - 2)) = candCrc (candidateBytes s p) ↔
      (crc16 0xFFFF#16 (bytesAt s.ibuf p (p + len - 2))).toNat = be16At s.ibuf (p + len - 2) := by
  rw [h.candCrc_eq hmin hfits, frameCrc, bytesAt_take, Nat.min_eq_left (by omega), ← Nat.add_sub_assoc (by omega),
    ← BitVec.toNat_inj, BitVec.toNat_ofNat, Nat.mod_eq_of_lt (be16At_lt ..)]

end

/-! ## The outcomes of DECODE -/

/-- The state after the accept of the candidate at `p` with declared length `len` (R117). -/
def decodeTakes (s : State) (p len : Nat) : State :=
  decodeSucceeds { s with fpos := BitVec.ofNat 16 p, flen := BitVec.ofNat 16 len } p (candidateBytes s p)

@[simp] theorem decodeEnds_status (s : State) (c : Byte) (p nx len : Nat) : (decodeEnds s c p nx len).status = c := rfl
@[simp] theorem decodeTakes_status (s : State) (p len : Nat) : (decodeTakes s p len).status = 0x00#8 := rfl
@[simp] theorem decodeTakes_fpos (s : State) (p len : Nat) : (decodeTakes s p len).fpos = BitVec.ofNat 16 p := rfl
@[simp] theorem decodeTakes_flen (s : State) (p len : Nat) : (decodeTakes s p len).flen = BitVec.ofNat 16 len := rfl

theorem Candidate.decodeTakes_next {s : State} {p len : Nat} (h : Candidate s p len) :
    (decodeTakes s p len).next = BitVec.ofNat 16 (p + len) :=
  congrArg (fun n => BitVec.ofNat 16 (p + n)) h.candLen_toNat

/-- DECODE of a candidate with its envelope in the window: the checks of R113 to R116 in their order, then the accept. -/
theorem execDecode_candidate {s : State} {p len : Nat} (h : Candidate s p len) : exec .decode s =
    if len < 12 then .next (decodeEnds s 0x30#8 p (p + 1) len)
    else if 8192 < len then .next (decodeEnds s 0x31#8 p (p + 1) len)
    else if escAt s.ibuf p < payloadPairs s p len then .next (decodeEnds s 0x32#8 p (p + 1) len)
    else if s.ilen.toNat < p + len then .next (decodeEnds s 0x21#8 p p len)
    else if payloadPairs s p len < escAt s.ibuf p then .next (decodeEnds s 0x33#8 p (p + 1) len)
    else if (crc16 0xFFFF#16 (bytesAt s.ibuf p (p + len - 2))).toNat ≠ be16At s.ibuf (p + len - 2) then
      .next (decodeEnds s 0x34#8 p (p + 1) len)
    else .next (decodeTakes s p len) := by
  have henv := h.envelope
  have hframed : exec .decode s =
      decodeFramed { s with fpos := BitVec.ofNat 16 p, flen := BitVec.ofNat 16 len } p (candidateBytes s p) := by
    rw [exec, execDecode_first h.readable h.first, ← h.candLen_eq]
    rcases decodeCandidate_cases { s with fpos := BitVec.ofNat 16 p } p (candidateBytes s p) with ⟨hshort, -⟩ | ⟨-, hx⟩
    · rw [bytesAt_length] at hshort; omega
    · exact hx
  have hcases := decodeFramed_cases { s with fpos := BitVec.ofNat 16 p, flen := BitVec.ofNat 16 len } p (candidateBytes s p)
  rw [h.candLen_toNat, h.escField_candHeader, bytesAt_length, ← hframed] at hcases
  rcases hcases with ⟨hlen, hx⟩ | ⟨hlen, hx⟩ | ⟨hmin, hmax, hchecks⟩
  · rw [if_pos hlen, hx]; rfl
  · rw [if_neg (by omega), if_pos hlen, hx]; rfl
  rw [h.esc_candPayload hmin] at hchecks
  rw [if_neg hmin.not_gt, if_neg hmax.not_gt]
  rcases hchecks with ⟨hesc, hx⟩ | ⟨hesc, hpast, hx⟩ | ⟨hesc, hfits, hx⟩ | ⟨hesc, hfits, hcrc, hx⟩ | ⟨hesc, hfits, hcrc, hx⟩
  · rw [if_pos hesc, hx]; rfl
  · rw [if_neg hesc.not_gt, if_pos (by omega), hx]; rfl
  · rw [if_neg hesc.not_gt, if_neg (by omega), if_pos hesc, hx]; rfl
  · have hdiffers := (h.crcAgrees_iff hmin (by omega)).not.1 hcrc
    rw [if_neg hesc.not_gt, if_neg (by omega), if_neg hesc.not_lt, if_pos hdiffers, hx]; rfl
  · have hequal := (h.crcAgrees_iff hmin (by omega)).1 hcrc
    rw [if_neg hesc.not_gt, if_neg (by omega), if_neg hesc.not_lt, if_neg (not_not.2 hequal), hx,
      decodeAccepts_fits (by rw [h.candLen_toNat]; exact hmax)]; rfl

/-- DECODE of a candidate whose envelope runs past the window (R112). -/
theorem execDecode_short {s : State} {p : Nat} (hr : RangeReadable s) (hp : FirstPair s p)
    (hshort : s.ilen.toNat < p + 12) : exec .decode s = .next (decodeEnds s 0x21#8 p p 0) := by
  have hin := hp.inWindow
  rw [exec, execDecode_first hr hp]
  rcases decodeCandidate_cases { s with fpos := BitVec.ofNat 16 p } p (candidateBytes s p) with ⟨-, hx⟩ | ⟨hlong, -⟩
  · rw [hx]; rfl
  · rw [bytesAt_length] at hlong; omega

/-- Where R111 leaves NEXT when the window holds no sync pair: on a last byte 0xA5, else behind the window. -/
def noPairNext (s : State) : Nat :=
  if s.start.toNat < s.ilen.toNat ∧ Memory.get? s.ibuf (s.ilen.toNat - 1) = some 0xA5#8
  then s.ilen.toNat - 1 else s.ilen.toNat

/-- The last byte of a readable window. -/
theorem rangeBytes_getLast? {s : State} (hr : RangeReadable s) : (rangeBytes s).getLast? =
    if s.start.toNat < s.ilen.toNat then Memory.get? s.ibuf (s.ilen.toNat - 1) else none := by
  rw [List.getLast?_eq_getElem?, bytesAt_length, bytesAt_getElem?]
  split_ifs
  · rw [get?_eq_byteAt (hr.2 _ (by omega) (by omega))]
    congr 2
    omega
  · omega
  · omega
  · rfl

theorem noSyncNext_rangeBytes {s : State} (hr : RangeReadable s) : noSyncNext s (rangeBytes s) = noPairNext s := by
  rw [noSyncNext, rangeBytes_getLast? hr, noPairNext]
  by_cases hne : s.start.toNat < s.ilen.toNat <;> simp [hne, Config.sync]

/-- DECODE of a window with no sync pair (R111). -/
theorem execDecode_noPair {s : State} (hr : RangeReadable s)
    (hnone : ∀ i, s.start.toNat ≤ i → i + 1 < s.ilen.toNat → pairAt s.ibuf i = false) :
    exec .decode s = .next (decodeEnds s 0x20#8 (noPairNext s) (noPairNext s) 0) := by
  rcases execDecode_readable hr with ⟨-, hx⟩ | ⟨p, hp, -⟩
  · rw [exec, hx, decodeNoSync, noSyncNext_rangeBytes hr]; rfl
  · have hnot := hnone p hp.fromStart hp.inWindow
    rw [hp.pair] at hnot
    cases hnot

/-- The codes of R119 with which DECODE rejects a candidate for good. -/
def rejectionCodes : List Byte := [0x30#8, 0x31#8, 0x32#8, 0x33#8, 0x34#8]

/-- A DECODE that answers over a readable window found no sync pair, or took the first pair of the window as its candidate
and left it incomplete, rejected it, or accepted it inside the window; with NEXT by outcome (R119). -/
theorem execDecode_ends {s t : State} (hr : RangeReadable s) (ht : exec .decode s = .next t) :
    t = decodeEnds s 0x20#8 (noPairNext s) (noPairNext s) 0 ∨
    ∃ p len, FirstPair s p ∧
      (t = decodeEnds s 0x21#8 p p len ∨ (∃ c ∈ rejectionCodes, t = decodeEnds s c p (p + 1) len) ∨
        (Candidate s p len ∧ p + len ≤ s.ilen.toNat ∧ t = decodeTakes s p len)) := by
  rcases execDecode_readable hr with ⟨hnone, -⟩ | ⟨p, hp, -⟩
  · rw [execDecode_noPair hr hnone] at ht
    cases ht; exact .inl rfl
  by_cases henv : p + 12 ≤ s.ilen.toNat
  · have hcand : Candidate s p (be16At s.ibuf (p + 2)) := ⟨hr, hp, henv, rfl⟩
    refine .inr ⟨p, be16At s.ibuf (p + 2), hp, ?_⟩
    rw [execDecode_candidate hcand] at ht
    split_ifs at ht with _ _ _ hpast <;> cases ht
    · exact .inr (.inl ⟨0x30#8, by decide, rfl⟩)
    · exact .inr (.inl ⟨0x31#8, by decide, rfl⟩)
    · exact .inr (.inl ⟨0x32#8, by decide, rfl⟩)
    · exact .inl rfl
    · exact .inr (.inl ⟨0x33#8, by decide, rfl⟩)
    · exact .inr (.inl ⟨0x34#8, by decide, rfl⟩)
    · exact .inr (.inr ⟨hcand, Nat.le_of_not_lt hpast, rfl⟩)
  · rw [execDecode_short hr hp (by omega)] at ht
    cases ht; exact .inr ⟨p, 0, hp, .inl rfl⟩

/-! ## The checks of a candidate -/

section
variable {s : State} {p len : Nat}

/-- The registers of an accept by absolute index, and its payload in OBUF (R117). -/
theorem decodeTakes_eq (h : Candidate s p len) (hmin : 12 ≤ len) (hfits : p + len ≤ s.ilen.toNat) :
    decodeTakes s p len = { s with
      status := 0x00#8, fpos := BitVec.ofNat 16 p, next := BitVec.ofNat 16 (p + len), flen := BitVec.ofNat 16 len,
      hdrAddr := BitVec.ofNat 32 (be16At s.ibuf (p + 4) * 65536 + be16At s.ibuf (p + 6)),
      hdrOp := BitVec.ofNat 16 (be16At s.ibuf (p + 8)), fcrc := BitVec.ofNat 16 (be16At s.ibuf (p + len - 2)),
      olen := BitVec.ofNat 16 (len - 12), obuf := Memory.setAll s.obuf 0 (bytesAt s.ibuf (p + 10) (p + len - 2)) } := by
  have henv := h.envelope
  rw [decodeTakes, decodeSucceeds, be16_candByte (k := 4) (by omega), be16_candByte (k := 6) (by omega), candHeader,
    be16_candByte (k := 8) (by omega), ofNat_append_ofNat _ (be16At_lt ..), h.candCrc_eq hmin hfits,
    h.candPayload_eq hmin, Nat.min_eq_left (by omega), h.candLen_toNat]
  rfl

/-- The payload of an accept stands in OBUF from index 0, every byte beyond it as before. -/
theorem get?_setAll_payload (h : Candidate s p len) (hfits : p + len ≤ s.ilen.toNat) (j : Nat) :
    Memory.get? (Memory.setAll s.obuf 0 (bytesAt s.ibuf (p + 10) (p + len - 2))) j =
      if j < len - 12 then Memory.get? s.ibuf (p + 10 + j) else Memory.get? s.obuf j := by
  have hstart := h.first.fromStart
  rw [Memory.get?_setAll, bytesAt_length, Nat.sub_zero, bytesAt_getElem?]
  by_cases hj : j < len - 12
  · rw [if_pos (by omega), if_pos (by omega), if_pos hj, get?_eq_byteAt (h.readable.2 _ (by omega) (by omega))]
  · rw [if_neg (by omega), if_neg hj]

end

/-- Settles O26: the first two checks of a candidate. -/
theorem decodeChecksLength : Obligations.DecodeChecksLength := by
  refine fun s p len h => ⟨fun hshort => ?_, fun hlong => ?_⟩ <;> rw [execDecode_candidate h]
  · rw [if_pos hshort]
  · rw [if_neg (by omega), if_pos hlong]

/-- Settles O27: the check for more pairs than E comes before completeness, the one for fewer after it. -/
theorem decodeRejectsEscapeOverrun : Obligations.DecodeRejectsEscapeOverrun := by
  refine fun s p len h hmin hmax => ⟨fun hover => ?_, fun hfits hfewer => ?_⟩ <;>
    rw [execDecode_candidate h, if_neg hmin.not_gt, if_neg hmax.not_gt]
  · rw [if_pos hover]
  · rw [if_neg hfewer.not_gt, if_neg hfits.not_gt, if_pos hfewer]

/-- Settles O28: completeness is checked once there are not too many pairs; the second clause is one of R114. -/
theorem decodeChecksCompleteness : Obligations.DecodeChecksCompleteness := by
  refine fun s p len h hmin hmax hesc => ⟨fun hpast => ?_, (decodeRejectsEscapeOverrun s p len h hmin hmax).2⟩
  rw [execDecode_candidate h, if_neg hmin.not_gt, if_neg hmax.not_gt, if_neg hesc.not_gt, if_pos hpast]

/-- Settles O29: the CRC is the last check of a complete candidate with E pairs. -/
theorem decodeChecksCrc : Obligations.DecodeChecksCrc := by
  intro s p len h hmin hmax hfits hesc hcrc
  rw [execDecode_candidate h, if_neg hmin.not_gt, if_neg hmax.not_gt, if_neg hesc.not_gt, if_neg hfits.not_gt,
    if_neg hesc.not_lt, if_pos hcrc]

/-- Settles O30: past all checks the candidate is taken, whose registers and payload are read by absolute index. -/
theorem decodeAcceptsFrame : Obligations.DecodeAcceptsFrame := by
  intro s p len h hmin hmax hfits hesc hcrc
  refine ⟨_, ?_, get?_setAll_payload h hfits⟩
  rw [execDecode_candidate h, if_neg hmin.not_gt, if_neg hmax.not_gt, if_neg hesc.not_gt, if_neg hfits.not_gt,
    if_neg hesc.not_lt, if_neg (not_not.2 hcrc), decodeTakes_eq h hmin hfits]

/-! ## Over every window -/

/-- With a first pair in the window DECODE answers, and FPOS names that pair (R111). -/
theorem execDecode_fpos {s : State} {p : Nat} (hr : RangeReadable s) (hp : FirstPair s p) :
    ∃ t, exec .decode s = .next t ∧ t.fpos = BitVec.ofNat 16 p := by
  by_cases henv : p + 12 ≤ s.ilen.toNat
  · rw [execDecode_candidate ⟨hr, hp, henv, rfl⟩]
    split_ifs <;> exact ⟨_, rfl, rfl⟩
  · exact ⟨_, execDecode_short hr hp (by omega), rfl⟩

/-- Settles O24: a window with a pair is decided at its first one, a window without by its last byte. -/
theorem decodeFindsFirstPair : Obligations.DecodeFindsFirstPair :=
  fun _ hr => ⟨fun _ hp => execDecode_fpos hr hp, execDecode_noPair hr⟩

/-- Only a bad range makes DECODE report ERR_ARG. -/
theorem execDecode_errArg {s t : State} (ht : exec .decode s = .next t) (harg : t.status = 0x03#8) :
    t = { s with status := 0x03#8 } := by
  rcases withRange_next ht with ⟨-, rfl⟩ | ⟨hr, -⟩
  · rfl
  have hother : ∀ c ∈ rejectionCodes, c ≠ 0x03#8 := by decide
  rcases execDecode_ends hr ht with rfl | ⟨p, len, -, rfl | ⟨c, hc, rfl⟩ | ⟨-, -, rfl⟩⟩
  · cases harg
  · cases harg
  · exact absurd harg (hother c hc)
  · cases harg

/-- Settles O31: the frame of a DECODE that does not accept. -/
theorem decodeWithoutAcceptKeepsOutputs : Obligations.DecodeWithoutAcceptKeepsOutputs := by
  refine fun s => ⟨fun hv => withRange_invalid hv, fun t ht hne => ⟨?_, execDecode_errArg ht⟩⟩
  rcases execDecode_frame ht with ⟨-, hkept⟩ | ⟨hok, -⟩
  · exact hkept
  · exact absurd hok hne

theorem noPairNext_toNat (s : State) : (BitVec.ofNat 16 (noPairNext s)).toNat = noPairNext s := by
  have hilen := s.ilen.isLt
  rw [BitVec.toNat_ofNat, Nat.mod_eq_of_lt]
  rw [noPairNext]
  split_ifs <;> omega

/-- A rescan after a rejection starts one index behind the candidate. -/
theorem FirstPair.succ_toNat {s : State} {p : Nat} (h : FirstPair s p) :
    (BitVec.ofNat 16 (p + 1)).toNat = (BitVec.ofNat 16 p).toNat + 1 := by
  have hin := h.inWindow
  rw [h.toNat_ofNat, BitVec.toNat_ofNat, Nat.mod_eq_of_lt (by omega)]

/-- A scan after an accept starts behind the frame. -/
theorem Candidate.decodeTakes_next_toNat {s : State} {p len : Nat} (h : Candidate s p len)
    (hfits : p + len ≤ s.ilen.toNat) :
    (decodeTakes s p len).next.toNat = (decodeTakes s p len).fpos.toNat + (decodeTakes s p len).flen.toNat := by
  have hilen := s.ilen.isLt
  rw [h.decodeTakes_next, decodeTakes_fpos, decodeTakes_flen, h.first.toNat_ofNat, BitVec.toNat_ofNat, BitVec.toNat_ofNat,
    Nat.mod_eq_of_lt (by omega), Nat.mod_eq_of_lt h.len_lt]

/-- Settles O32: one case for each way a DECODE ends; the codes of the other cases are different ones. -/
theorem decodeNextByOutcome : Obligations.DecodeNextByOutcome := by
  intro s t ht
  rcases withRange_next ht with ⟨-, rfl⟩ | ⟨hr, -⟩
  · exact ⟨nofun, nofun, nofun, by simp [StatusCode.code], fun _ => rfl⟩
  have hother : ∀ c ∈ rejectionCodes, c ≠ 0x00#8 ∧ c ≠ 0x20#8 ∧ c ≠ 0x21#8 ∧ c ≠ 0x03#8 := by decide
  rcases execDecode_ends hr ht with rfl | ⟨p, len, hp, rfl | ⟨c, hc, rfl⟩ | ⟨h, hfits, rfl⟩⟩
  · exact ⟨nofun, fun _ => noPairNext_toNat s, nofun, by simp, nofun⟩
  · exact ⟨nofun, nofun, fun _ => rfl, by simp, nofun⟩
  · obtain ⟨hok, hnone, hwait, harg⟩ := hother c hc
    exact ⟨fun hs => absurd hs hok, fun hs => absurd hs hnone, fun hs => absurd hs hwait, fun _ => hp.succ_toNat,
      fun hs => absurd hs harg⟩
  · exact ⟨fun _ => h.decodeTakes_next_toNat hfits, nofun, nofun, by simp, nofun⟩

end Sys2Proof.Machine
end

section
/-! PROOFS. The reset event and the written marks (70_reset_and_hazards.md R170): a transaction other than reset does nothing
to a buffer but write a byte sequence into it, and writing sets marks only. -/

namespace Sys2Proof.Machine

/-- No byte is written in a buffer without marks. -/
theorem Memory.not_written_nil (i : Nat) : ¬ Memory.written [] i := not_written.2 rfl

/-- Writing a sequence leaves each written byte written. -/
theorem Memory.written_setAll {m : Memory} {j : Nat} (i : Nat) (S : List Byte) (h : Memory.written m j) :
    Memory.written (Memory.setAll m i S) j := by
  rw [Memory.written, Memory.get?_setAll]
  split
  · have hk : j - i < S.length := by omega
    exact ⟨S[j - i], List.getElem?_eq_getElem hk⟩
  · exact h

@[simp] theorem State.writeReg_ibuf (s : State) (v : RegVal) : (s.writeReg v).ibuf = s.ibuf := by
  cases v <;> rfl

@[simp] theorem State.writeReg_obuf (s : State) (v : RegVal) : (s.writeReg v).obuf = s.obuf := by
  cases v <;> rfl

/-- A command leaves IBUF alone and writes a sequence to the start of OBUF, the empty one where it leaves OBUF alone (R49). -/
theorem exec_buffers {i : Instr} {s t : State} (h : exec i s = .next t) :
    t.ibuf = s.ibuf ∧ ∃ S, t.obuf = Memory.setAll s.obuf 0 S := by
  cases i with
  | nop | crcInit _ | crcByte _ | crcTab _ => cases h; exact ⟨rfl, [], rfl⟩
  | crcBuf =>
    rw [execCrcBuf_frame h]
    exact ⟨rfl, [], rfl⟩
  | escCount =>
    rw [execEscCount_frame h]
    exact ⟨rfl, [], rfl⟩
  | encode =>
    rcases execEncode_next h with ⟨c, -, ht⟩ | ⟨-, rfl⟩
    · rw [ht]; exact ⟨rfl, [], rfl⟩
    · exact ⟨rfl, _, rfl⟩
  | decode =>
    rcases execDecode_frame h with ⟨-, ht⟩ | ⟨-, ht, P, -, hobuf⟩
    · rw [ht]; exact ⟨rfl, [], rfl⟩
    · exact ⟨by rw [ht], P, hobuf⟩

/-- The same for a word issued as a command: an illegal or reserved word only reports (R71). -/
theorem issue_buffers {w : Word} {s t : State} (h : issue w s = .next t) :
    t.ibuf = s.ibuf ∧ ∃ S, t.obuf = Memory.setAll s.obuf 0 S := by
  rcases issue_cases w s with ⟨i, -, hx⟩ | ⟨-, hx⟩ | ⟨-, hx⟩ <;> rw [hx] at h
  · exact exec_buffers h
  · cases h; exact ⟨rfl, [], rfl⟩
  · cases h; exact ⟨rfl, [], rfl⟩

/-- A transaction other than reset writes a sequence, which may be empty, to each buffer and does nothing else to it. -/
theorem transact_buffers {tx : HostTx} {s t : State} (hreset : tx ≠ .reset) (h : transact tx s = .next t) :
    (∃ i S, t.ibuf = Memory.setAll s.ibuf i S) ∧ ∃ S, t.obuf = Memory.setAll s.obuf 0 S := by
  rcases transact_cases h with ⟨w, -, hw⟩ | ⟨v, -, -, rfl⟩ | ⟨r, -, rfl⟩ | ⟨i, b, m, -, hm, rfl⟩ | ⟨i, b, -, -, rfl⟩ |
    ⟨buf, i, S, -, -, rfl⟩ | ⟨hx, -⟩
  · obtain ⟨hibuf, hobuf⟩ := issue_buffers hw
    exact ⟨⟨0, [], hibuf⟩, hobuf⟩
  · exact ⟨⟨0, [], s.writeReg_ibuf v⟩, [], s.writeReg_obuf v⟩
  · exact ⟨⟨0, [], rfl⟩, [], rfl⟩
  · obtain ⟨-, hset⟩ := memWrite_eq_ok.1 hm
    exact ⟨⟨i, [b], hset⟩, [], rfl⟩
  · exact ⟨⟨0, [], rfl⟩, [], rfl⟩
  · exact ⟨⟨0, [], rfl⟩, [], rfl⟩
  · exact absurd hx hreset

/-- Settles O12: the reset event answers one state; every other transaction writes into the buffers, which clears no mark. -/
theorem resetEventAndWrittenMarks : Obligations.ResetEventAndWrittenMarks := by
  intro s
  refine ⟨⟨s.resetEvent, rfl, rfl, rfl, rfl, rfl, rfl, rfl, rfl, rfl, rfl, rfl, rfl, rfl, rfl,
    Memory.not_written_nil, Memory.not_written_nil⟩, fun tx t i hreset h => ?_⟩
  obtain ⟨⟨k, S, hibuf⟩, P, hobuf⟩ := transact_buffers hreset h
  rw [hibuf, hobuf]
  exact ⟨Memory.written_setAll k S, Memory.written_setAll 0 P⟩

end Sys2Proof.Machine
end

section
/-! PROOFS. Decoder and encoder undo each other (30_encoding.md section 2), and what one transaction of the host does: the
command it issues (10_state.md R12), the faults it can stop on (20_memory.md R44 to R47; 60_exceptions.md R140), and who
writes the buffers and CMD (10_state.md R12, R28, R29). -/

namespace Sys2Proof

/-- The word of an instruction as a number: its immediate above its code, the reserved byte 0 (R67). -/
theorem encode_toNat (i : Instr) : (encode i).toNat = i.immediate * 65536 + i.opcode := by
  cases i with
  | crcByte b => exact (commandWord_toNat _ _).trans (by rw [toNat_zero_append]; rfl)
  | crcTab idx => exact (commandWord_toNat _ _).trans (by rw [toNat_zero_append]; rfl)
  | nop | crcInit _ | crcBuf | escCount | encode | decode => exact commandWord_toNat _ _

/-- A word decodes to a command exactly when it is the command's encoding: its code, its reserved byte and its IMM are all
there is of it. -/
theorem decode_eq_command_iff_encode {w : Word} {i : Instr} : decode w = .command i ↔ encode i = w := by
  have hopc := i.opcode_lt
  rw [decode_eq_command_iff_fields, ← BitVec.toNat_inj, encode_toNat]
  omega

end Sys2Proof

namespace Sys2Proof.Machine

/-! ## Encoding -/

/-- Settles O1: decoding is fixed by the fields of a word, and so is the word of a command. -/
theorem decodeAgreesWithEncode : Obligations.DecodeAgreesWithEncode := fun _ _ => decode_eq_command_iff_encode

/-- Settles O3: each word is the encoding of its command. -/
theorem sampleWordsDecode : Obligations.SampleWordsDecode := by
  refine ⟨?_, ?_, ?_, ?_, ?_, ?_, ?_, ?_⟩ <;> exact decode_eq_command_iff_encode.2 (by decide)

/-! ## The step -/

/-- Settles O4: the oldest transaction is a write to CMD of the command's word, which issues the command. -/
theorem stepRunsDecodedCommand : Obligations.StepRunsDecodedCommand := by
  intro s w rest i hpending _ hw
  have hdecode : decode w = .command i := hw.elim id fun h => decode_eq_command_iff_encode.2 h.symm
  have hissue : issue w { s with cmd := w, pending := rest } = exec i { s with cmd := w, pending := rest } := by
    rw [issue, hdecode]
  rw [step_pending hpending]
  exact hissue

/-- No command writes CMD, the queue of transactions, or what the host has read: none of them is in a write set (R49). -/
theorem exec_keeps_host {i : Instr} {s t : State} (h : exec i s = .next t) :
    t.cmd = s.cmd ∧ t.pending = s.pending ∧ t.readData = s.readData := by
  cases i with
  | nop | crcInit _ | crcByte _ | crcTab _ => cases h; exact ⟨rfl, rfl, rfl⟩
  | crcBuf => rw [execCrcBuf_frame h]; exact ⟨rfl, rfl, rfl⟩
  | escCount => rw [execEscCount_frame h]; exact ⟨rfl, rfl, rfl⟩
  | encode => rw [(execEncode_frame h).1]; exact ⟨rfl, rfl, rfl⟩
  | decode => rw [(execDecode_writeSet h).1]; exact ⟨rfl, rfl, rfl⟩

/-- The same for a word issued as a command. -/
theorem issue_keeps_host {w : Word} {s t : State} (h : issue w s = .next t) :
    t.cmd = s.cmd ∧ t.pending = s.pending ∧ t.readData = s.readData := by
  rcases issue_cases w s with ⟨i, -, hx⟩ | ⟨-, hx⟩ | ⟨-, hx⟩ <;> rw [hx] at h
  · exact exec_keeps_host h
  · cases h; exact ⟨rfl, rfl, rfl⟩
  · cases h; exact ⟨rfl, rfl, rfl⟩

@[simp] theorem State.writeReg_pending (s : State) (v : RegVal) : (s.writeReg v).pending = s.pending := by
  cases v <;> rfl

@[simp] theorem State.writeReg_readData (s : State) (v : RegVal) : (s.writeReg v).readData = s.readData := by
  cases v <;> rfl

/-- Only a write to CMD stores in CMD. -/
theorem State.writeReg_keeps_cmd (s : State) {v : RegVal} (h : v.reg ≠ .cmd) : (s.writeReg v).cmd = s.cmd := by
  cases v with
  | cmd w => exact absurd rfl h
  | _ => rfl

/-- A transaction leaves the queue alone, and all but a host read leave what the host has read alone. -/
theorem transact_keeps_host {tx : HostTx} {s t : State} (h : transact tx s = .next t) :
    t.pending = s.pending ∧ (t.readData = s.readData ∨ (∃ r, tx = .readReg r) ∨ ∃ b i, tx = .readByte b i) := by
  rcases transact_cases h with ⟨w, -, hw⟩ | ⟨v, -, -, rfl⟩ | ⟨r, rfl, rfl⟩ | ⟨i, b, m, -, -, rfl⟩ | ⟨i, b, -, -, rfl⟩ |
    ⟨buf, i, S, rfl, -, rfl⟩ | ⟨-, rfl⟩
  · obtain ⟨-, hpending, hread⟩ := issue_keeps_host hw
    exact ⟨hpending, .inl hread⟩
  · exact ⟨s.writeReg_pending v, .inl (s.writeReg_readData v)⟩
  · exact ⟨rfl, .inr (.inl ⟨r, rfl⟩)⟩
  · exact ⟨rfl, .inl rfl⟩
  · exact ⟨rfl, .inl rfl⟩
  · exact ⟨rfl, .inr (.inr ⟨buf, i, rfl⟩)⟩
  · exact ⟨rfl, .inl rfl⟩

/-- Settles O5: an idle step changes nothing, any other is its transaction, which leaves the rest of the queue alone. -/
theorem oneTransactionPerStep : Obligations.OneTransactionPerStep := by
  intro s t h
  rcases step_cases s with ⟨hidle, hx⟩ | ⟨tx, rest, hpending, hx⟩ <;> rw [hx] at h
  · cases h; exact .inl ⟨hidle, rfl⟩
  · obtain ⟨hrest, hread⟩ := transact_keeps_host h
    obtain rfl : t.pending = rest := hrest
    exact .inr ⟨tx, hpending, h, fun hne => hread.resolve_left hne⟩

/-! ## Host reads and writes -/

/-- Settles O9: a register read takes the register its value belongs to; a byte read answers the one byte it finds. -/
theorem hostReadReturnsRegisterOrByte : Obligations.HostReadReturnsRegisterOrByte := by
  intro s
  have readByte (buf : Buf) (i : Nat) (b : Byte) (hi : i < 8192) (hb : Memory.get? (s.buf buf) i = some b) :
      transact (.readByte buf i) s = .next { s with readData := some (.byte buf i b) } := by
    have hread : memRead (s.buf buf) i 1 = .ok [b] :=
      memRead_eq_ok.2 ⟨Nat.succ_le_of_lt hi, rfl, by simpa using hb⟩
    rw [transact, hostReadByte, hread]; rfl
  refine ⟨fun v hv => ?_, readByte .ibuf, readByte .obuf⟩
  have hreg : s.readReg v.reg = v := by
    simp only [List.mem_cons, List.not_mem_nil, or_false] at hv
    rcases hv with rfl | rfl | rfl | rfl | rfl | rfl | rfl | rfl | rfl | rfl | rfl | rfl | rfl <;> rfl
  rw [transact, hostReadReg, hreg]

/-- Settles O11: an index outside the buffer fails the index check of both primitives; inside it the byte is stored. -/
theorem hostBufferIndexChecks : Obligations.HostBufferIndexChecks := by
  refine fun s i v => ⟨fun hi b => ⟨?_, ?_⟩, fun hi => ⟨Memory.set s.ibuf i v, ?_, fun j => Memory.get?_set s.ibuf i j v⟩⟩
  · cases b with
    | ibuf =>
      have hwrite : memWrite s.ibuf i [v] = .error .indexRange :=
        memWrite_eq_error.2 ⟨Nat.lt_succ_of_le hi, rfl⟩
      rw [transact, hostWriteByte, hwrite]
    | obuf => exact if_neg (by simpa [indexExists] using hi)
  · have hread : memRead (s.buf b) i 1 = .error .indexRange := memRead_eq_indexRange.2 (Nat.lt_succ_of_le hi)
    rw [transact, hostReadByte, hread]
  · have hwrite : memWrite s.ibuf i [v] = .ok (Memory.set s.ibuf i v) := memWrite_ok (Nat.succ_le_of_lt hi)
    rw [transact, hostWriteByte, hwrite]

/-! ## When a command stops -/

section
variable {i : Instr} {s : State}

/-- A command that does not use the input range always answers. -/
theorem exec_answers_of_noRange (hi : usesRange i = false) : ∃ t, exec i s = .next t := by
  cases i with
  | nop | crcInit _ | crcByte _ | crcTab _ => exact ⟨_, rfl⟩
  | crcBuf | escCount | encode | decode => cases hi

/-- A command over a bad range answers: with ERR_ARG (60_exceptions.md R144). -/
theorem exec_answers_of_invalid (hv : ¬ RangeValid s) : ∃ t, exec i s = .next t := by
  cases i with
  | nop | crcInit _ | crcByte _ | crcTab _ => exact ⟨_, rfl⟩
  | crcBuf | escCount | encode | decode => exact ⟨_, withRange_invalid hv⟩

/-- A command over a readable range answers. -/
theorem exec_answers_of_readable (hr : RangeReadable s) : ∃ t, exec i s = .next t := by
  cases i with
  | nop | crcInit _ | crcByte _ | crcTab _ => exact ⟨_, rfl⟩
  | crcBuf => exact ⟨_, execCrcBuf_readable hr⟩
  | escCount => exact ⟨_, execEscCount_readable hr⟩
  | encode =>
    rw [execEncode_readable hr]
    split_ifs <;> exact ⟨_, rfl⟩
  | decode =>
    rcases execDecode_readable hr with ⟨-, hx⟩ | ⟨p, hp, -⟩
    · exact ⟨_, hx⟩
    · obtain ⟨t, ht, -⟩ := execDecode_fpos hr hp
      exact ⟨t, ht⟩

/-- A command over a valid range with an unwritten byte stops (20_memory.md R47). -/
theorem exec_unreadable (hi : usesRange i = true) (hv : RangeValid s) (hr : ¬ RangeReadable s) :
    exec i s = .fault .unwrittenRead := by
  cases i with
  | nop | crcInit _ | crcByte _ | crcTab _ => cases hi
  | crcBuf | escCount | encode | decode => exact withRange_unreadable hv hr

end

/-- Settles O38: the command uses no range, or its range is bad, unreadable or readable. -/
theorem commandsStopOnlyOnUnwrittenReads : Obligations.CommandsStopOnlyOnUnwrittenReads := by
  intro i s
  cases hi : usesRange i with
  | false => exact .inl ⟨exec_answers_of_noRange hi, nofun⟩
  | true =>
    by_cases hr : RangeReadable s
    · exact .inl ⟨exec_answers_of_readable hr, fun _ _ => hr⟩
    by_cases hv : RangeValid s
    · exact .inr ⟨exec_unreadable hi hv hr, rfl, hv, hr⟩
    · exact .inl ⟨exec_answers_of_invalid hv, fun _ h => absurd h hv⟩

/-- Settles O10: an unwritten byte makes the range of a command unreadable, and fails the host's MemRead of that byte. -/
theorem unwrittenReadsFault : Obligations.UnwrittenReadsFault := by
  refine fun s => ⟨fun i a hi hv hlo hhi hw => exec_unreadable hi hv fun hr => hw (hr.2 a hlo hhi), fun b a ha hw => ?_⟩
  have hread : memRead (s.buf b) a 1 = .error .unwrittenRead :=
    memRead_eq_unwritten.2 ⟨Nat.succ_le_of_lt ha, 0, Nat.one_pos, not_written.1 hw⟩
  rw [transact, hostReadByte, hread]

/-! ## Who writes the buffers and CMD -/

/-- Only ENCODE and DECODE write OBUF (10_state.md R29). -/
theorem exec_obuf_writer {i : Instr} {s t : State} (h : exec i s = .next t) (hne : t.obuf ≠ s.obuf) :
    i = .encode ∨ i = .decode := by
  cases i with
  | nop | crcInit _ | crcByte _ | crcTab _ => cases h; exact absurd rfl hne
  | crcBuf => rw [execCrcBuf_frame h] at hne; exact absurd rfl hne
  | escCount => rw [execEscCount_frame h] at hne; exact absurd rfl hne
  | encode => exact .inl rfl
  | decode => exact .inr rfl

/-- A word that changes OBUF when issued is the word of ENCODE or of DECODE. -/
theorem issue_obuf_writer {w : Word} {s t : State} (h : issue w s = .next t) (hne : t.obuf ≠ s.obuf) :
    w = encode .encode ∨ w = encode .decode := by
  rcases issue_cases w s with ⟨i, hw, hx⟩ | ⟨-, hx⟩ | ⟨-, hx⟩ <;> rw [hx] at h
  · rw [← decode_eq_command_iff_encode.1 hw]
    exact (exec_obuf_writer h hne).imp (congrArg encode) (congrArg encode)
  · cases h; exact absurd rfl hne
  · cases h; exact absurd rfl hne

/-- Settles O43: of what a transaction can do, a byte write inside IBUF changes IBUF, a write to CMD stores its word and may
issue ENCODE or DECODE, and nothing else reaches these three. -/
theorem bufferAndCmdWriters : Obligations.BufferAndCmdWriters := by
  intro s t tx h hreset
  rcases transact_cases h with ⟨w, rfl, hw⟩ | ⟨v, rfl, hv, rfl⟩ | ⟨r, rfl, rfl⟩ | ⟨i, b, m, rfl, hm, rfl⟩ |
    ⟨i, b, rfl, -, rfl⟩ | ⟨buf, i, S, rfl, -, rfl⟩ | ⟨rfl, -⟩
  · obtain ⟨hcmd, -, -⟩ := issue_keeps_host hw
    refine ⟨fun hne => absurd (issue_buffers hw).1 hne, fun hne => ?_, fun _ => by rw [hcmd]⟩
    exact (issue_obuf_writer hw hne).imp (congrArg (HostTx.writeReg ∘ RegVal.cmd))
      (congrArg (HostTx.writeReg ∘ RegVal.cmd))
  · exact ⟨fun hne => absurd (s.writeReg_ibuf v) hne, fun hne => absurd (s.writeReg_obuf v) hne,
      fun hne => absurd (s.writeReg_keeps_cmd hv) hne⟩
  · exact ⟨(absurd rfl ·), (absurd rfl ·), (absurd rfl ·)⟩
  · obtain ⟨hi, -⟩ := memWrite_eq_ok.1 hm
    exact ⟨fun _ => ⟨i, b, rfl, Nat.lt_of_succ_le hi⟩, (absurd rfl ·), (absurd rfl ·)⟩
  · exact ⟨(absurd rfl ·), (absurd rfl ·), (absurd rfl ·)⟩
  · exact ⟨(absurd rfl ·), (absurd rfl ·), (absurd rfl ·)⟩
  · exact absurd rfl hreset

end Sys2Proof.Machine
end

section
/-! PROOFS. The algebra of the CRC unit (40_crc.md R81 to R83): an update is eight shifts of the accumulator with the byte in
it, so it is linear over XOR and one-to-one in the accumulator and in the byte. -/

namespace Sys2Proof.Machine

/-! ## The update, bit by bit -/

/-- A shift of a value moved up by one bit or more only moves it down. -/
theorem crcShift_shiftLeft_succ (v : Half) (k : Nat) (h : v.toNat * 2 ^ (k + 1) < 65536) :
    crcShift (v <<< (k + 1)) = v <<< k := by
  rw [crcShift_of_even (by simp)]
  apply BitVec.eq_of_toNat_eq
  rw [pow_succ, ← Nat.mul_assoc] at h
  rw [BitVec.toNat_ushiftRight, BitVec.toNat_shiftLeft, BitVec.toNat_shiftLeft, Nat.shiftLeft_eq, Nat.shiftLeft_eq,
    Nat.shiftRight_eq_div_pow, pow_succ, ← Nat.mul_assoc, Nat.mod_eq_of_lt h, Nat.mod_eq_of_lt (by omega)]
  omega

/-- Eight shifts of a byte in the upper half bring it to the lower half. -/
theorem crcShift8_shiftLeft_eight (v : Half) (h : v.toNat < 256) : crcShift8 (v <<< 8) = v := by
  simp only [crcShift8]
  rw [crcShift_shiftLeft_succ v 7 (by omega), crcShift_shiftLeft_succ v 6 (by omega),
    crcShift_shiftLeft_succ v 5 (by omega), crcShift_shiftLeft_succ v 4 (by omega),
    crcShift_shiftLeft_succ v 3 (by omega), crcShift_shiftLeft_succ v 2 (by omega),
    crcShift_shiftLeft_succ v 1 (by omega), crcShift_shiftLeft_succ v 0 (by omega), BitVec.shiftLeft_zero]

/-- A 16-bit value is its upper byte, moved up, and its lower byte. -/
theorem upper_xor_lower (v : Half) : (v >>> 8) <<< 8 ^^^ (v &&& 0x00FF#16) = v := by
  have hmask : ∀ k, (hk : k < 16) → (0x00FF#16)[k] = decide (k < 8) := by decide
  ext k hk
  by_cases hlow : k < 8
  · simp [hmask k hk, hlow]
  · simp [hmask k hk, hlow, show 8 + (k - 8) = k by omega, BitVec.getLsbD_eq_getElem hk]

/-- Eight shifts: the upper byte moves down, the lower byte is replaced by its table entry. -/
theorem crcShift8_eq (v : Half) : crcShift8 v = (v >>> 8) ^^^ crcShift8 (v &&& 0x00FF#16) := by
  have hupper : (v >>> 8).toNat < 256 := by
    have hv := v.isLt
    rw [BitVec.toNat_ushiftRight, Nat.shiftRight_eq_div_pow]
    omega
  conv_lhs => rw [← upper_xor_lower v, crcShift8_xor, crcShift8_shiftLeft_eight _ hupper]

/-- The byte of an update does not reach the upper half of the accumulator. -/
theorem shiftRight_xor_setWidth (c : Half) (b : Byte) : (c ^^^ b.setWidth 16) >>> 8 = c >>> 8 := by
  have hbyte : b.setWidth 16 >>> 8 = 0#16 := by
    apply BitVec.eq_of_toNat_eq
    have hb := b.isLt
    simp only [BitVec.toNat_ushiftRight, BitVec.toNat_setWidth, BitVec.toNat_ofNat, Nat.shiftRight_eq_div_pow]
    omega
  rw [BitVec.ushiftRight_xor_distrib, hbyte, BitVec.xor_zero]

/-- The table update is the bit-serial one (R81). -/
theorem crcStep_eq_bitSerial (c : Half) (b : Byte) : crcStep c b = crcShift8 (c ^^^ b.setWidth 16) := by
  rw [crcShift8_eq, shiftRight_xor_setWidth, crcStep_eq_crcShift8]

/-- Settles O16: CRC_BYTE does one update. -/
theorem crcByteIsBitSerial : Obligations.CrcByteIsBitSerial := by
  intro b s
  rw [← crcStep_eq_bitSerial]
  rfl

/-! ## Linearity -/

theorem crcStep_xor (c d : Half) (a b : Byte) : crcStep (c ^^^ d) (a ^^^ b) = crcStep c a ^^^ crcStep d b := by
  simp only [crcStep_eq_bitSerial, ← crcShift8_xor, BitVec.setWidth_xor]
  ac_rfl

/-- Two runs over sequences of one length: seeds and bytes combine (R83). -/
theorem crc16_xor (c d : Half) {S S' : List Byte} (h : S.length = S'.length) :
    crc16 c S ^^^ crc16 d S' = crc16 (c ^^^ d) (List.zipWith (· ^^^ ·) S S') := by
  induction S generalizing c d S' with
  | nil =>
    obtain rfl := List.eq_nil_of_length_eq_zero h.symm
    rfl
  | cons a S ih =>
    cases S' with
    | nil => cases h
    | cons b S' =>
      rw [List.zipWith_cons_cons, crc16_cons, crc16_cons, crc16_cons, crcStep_xor]
      exact ih _ _ (Nat.succ.inj h)

theorem zipWith_xor_self (S : List Byte) : List.zipWith (· ^^^ ·) S S = List.replicate S.length 0x00#8 := by
  simp [List.zipWith_self]

/-- Two runs over the same bytes differ as their seeds do over as many zero bytes (R83). -/
theorem crc16_xor_same (c d : Half) (S : List Byte) :
    crc16 c S ^^^ crc16 d S = crc16 (c ^^^ d) (List.replicate S.length 0x00#8) := by
  rw [crc16_xor c d rfl, zipWith_xor_self]

/-- Zero bytes leave the zero accumulator: two equal runs differ by nothing. -/
theorem crc16_zero_replicate (n : Nat) : crc16 0x0000#16 (List.replicate n 0x00#8) = 0x0000#16 := by
  have hsame := crc16_xor_same 0x0000#16 0x0000#16 (List.replicate n 0x00#8)
  rw [BitVec.xor_self, BitVec.xor_self, List.length_replicate] at hsame
  exact hsame.symm

/-- Settles O19. -/
theorem crcIsLinear : Obligations.CrcIsLinear :=
  ⟨fun c d _ _ h => crc16_xor c d h, crc16_xor_same, crc16_zero_replicate⟩

/-! ## A changed byte changes the CRC -/

/-- Only the zero register shifts to zero: the polynomial sets the bit a shift empties. -/
theorem crcShift_eq_zero {v : Half} (h : crcShift v = 0#16) : v = 0#16 := by
  have hv := v.isLt
  rw [crcShift] at h
  split at h
  · have htop := congrArg (BitVec.getLsbD · 15) h
    simp [Config.poly] at htop
  · next hbit =>
    have heven : v.toNat % 2 = 0 := by simpa [BitVec.getLsbD, Nat.testBit_zero] using hbit
    have hhalf : v.toNat / 2 = 0 := by
      simpa [BitVec.toNat_ushiftRight, Nat.shiftRight_eq_div_pow] using congrArg BitVec.toNat h
    exact BitVec.eq_of_toNat_eq (show v.toNat = 0 by omega)

/-- Eight shifts lose nothing. -/
theorem crcShift8_injective {v w : Half} (h : crcShift8 v = crcShift8 w) : v = w := by
  have hzero : crcShift8 (v ^^^ w) = 0#16 := by rw [crcShift8_xor, h, BitVec.xor_self]
  have hdiff : v ^^^ w = 0#16 :=
    crcShift_eq_zero <| crcShift_eq_zero <| crcShift_eq_zero <| crcShift_eq_zero <| crcShift_eq_zero <|
      crcShift_eq_zero <| crcShift_eq_zero <| crcShift_eq_zero hzero
  exact BitVec.xor_eq_zero_iff.1 hdiff

theorem crcStep_injective_seed {c d : Half} {b : Byte} (h : crcStep c b = crcStep d b) : c = d := by
  rw [crcStep_eq_bitSerial, crcStep_eq_bitSerial] at h
  exact (BitVec.xor_left_inj _).1 (crcShift8_injective h)

theorem crcStep_injective_byte {c : Half} {a b : Byte} (h : crcStep c a = crcStep c b) : a = b := by
  rw [crcStep_eq_bitSerial, crcStep_eq_bitSerial] at h
  have hwide : a.setWidth 16 = b.setWidth 16 := (BitVec.xor_right_inj _).1 (crcShift8_injective h)
  have hbyte := congrArg (BitVec.setWidth 8) hwide
  rwa [BitVec.setWidth_setWidth_of_le _ (by decide), BitVec.setWidth_setWidth_of_le _ (by decide), BitVec.setWidth_eq,
    BitVec.setWidth_eq] at hbyte

/-- Runs over the same bytes keep different seeds apart. -/
theorem crc16_injective_seed {c d : Half} {S : List Byte} (h : crc16 c S = crc16 d S) : c = d := by
  induction S generalizing c d with
  | nil => exact h
  | cons b S ih => exact crcStep_injective_seed (ih h)

/-- Two sequences that differ in one byte have different CRCs. -/
theorem crc16_injective_byte {c : Half} {S S' : List Byte} {a b : Byte}
    (h : crc16 c (S ++ a :: S') = crc16 c (S ++ b :: S')) : a = b := by
  rw [crc16_append, crc16_append, crc16_cons, crc16_cons] at h
  exact crcStep_injective_byte (crc16_injective_seed h)

end Sys2Proof.Machine
end

section
/-! PROOFS. The laws of the codec: the CRC field ENCODE appends is never the sync pair (41_escape_codec.md R105), DECODE
accepts an encoded frame wherever it stands first (R120), and rejects one with a bit inverted behind its LENGTH (R121). -/

namespace Sys2Proof.Machine

/-! ## A successful ENCODE -/

/-- An ENCODE of a range that fits succeeds. -/
theorem execEncode_fits {s : State} (hs : EncodeFits s) :
    exec .encode s = .next (encodeSucceeds s (encodeHeader s (rangeBytes s)) (rangeBytes s)) := by
  rw [execEncode_readable hs.readable, if_neg (not_not.2 hs.subFits), if_neg hs.frameFits.not_gt,
    if_neg hs.pairsFit.not_gt]

/-- An ENCODE that reports OK met a range that fits, and left its frame. -/
theorem execEncode_ok {s t : State} (h : exec .encode s = .next t) (hok : t.status = 0x00#8) :
    EncodeFits s ∧ t = encodeSucceeds s (encodeHeader s (rangeBytes s)) (rangeBytes s) := by
  rcases execEncode_next h with ⟨c, hc, ht⟩ | hsucceeds
  · have hfail : ∀ c ∈ encodeFailCodes, c.code ≠ 0x00#8 := by decide
    rw [ht, encodeFails_status] at hok
    exact absurd hok (hfail c hc)
  · exact hsucceeds

/-- What an ENCODE that reports OK leaves in OBUF and in OLEN. -/
theorem execEncode_ok_frame {s t : State} (h : exec .encode s = .next t) (hok : t.status = 0x00#8) :
    EncodeFits s ∧ t.olen.toNat = 12 + rangeLength s ∧
      EncodedFrame s t.obuf (encodeHeader s (rangeBytes s)) t.fcrc := by
  obtain ⟨hfits, rfl⟩ := execEncode_ok h hok
  have hlen := hfits.frameFits
  refine ⟨hfits, ?_, encodeSucceeds_frame hfits⟩
  rw [encodeSucceeds_olen, bytesAt_length, BitVec.toNat_ofNat, rangeLength]
  rw [rangeLength] at hlen
  exact Nat.mod_eq_of_lt (by omega)

/-- The header byte before disambiguation as a number: D is 0. -/
theorem plainHeader_toNat {s : State} (hp : rangePairs s ≤ 7) :
    (plainHeader s).toNat = rangePairs s * 16 + s.hdrOp.toNat % 16 := by
  rw [plainHeader, BitVec.toNat_ofNat]
  omega

/-- Setting D adds 128 to a header byte without it. -/
theorem or_dFlag_toNat {h : Byte} (hd : h.toNat < 128) : (h ||| 0x80#8).toNat = h.toNat + 128 := by
  rw [BitVec.toNat_or, Nat.or_comm, Nat.add_comm]
  exact (Nat.two_pow_add_eq_or_of_lt (i := 7) hd 1).symm

/-- Settles O23: with D set the body differs in one byte from the one whose CRC was the sync value. -/
theorem encodeNeverAppendsSyncValue : Obligations.EncodeNeverAppendsSyncValue := by
  intro s t h hok
  obtain ⟨hfits, rfl⟩ := execEncode_ok h hok
  have hpairs := hfits.pairsFit
  have hplain : (plainHeader s).toNat < 128 := by rw [plainHeader_toNat hpairs]; omega
  rw [encodeSucceeds_fcrc, encodeHeader, headerByte_eq_plainHeader hfits.readable hpairs, finalHeader]
  split
  · next hsync =>
    intro hagain
    have hequal := hagain.trans hsync.symm
    rw [frameCrc, frameCrc, frameBody_eq, frameBody_eq, List.append_assoc, List.append_assoc] at hequal
    have hsame : (plainHeader s ||| 0x80#8).toNat = (plainHeader s).toNat :=
      congrArg BitVec.toNat (crc16_injective_byte hequal)
    rw [or_dFlag_toNat hplain] at hsame
    omega
  · next hother => exact hother

/-! ## The fields of an encoded frame, as numbers -/

/-- Two written bytes as one value. -/
theorem be16At_of_get? {m : Memory} {i : Nat} {a b : Byte} (ha : Memory.get? m i = some a)
    (hb : Memory.get? m (i + 1) = some b) : be16At m i = a.toNat * 256 + b.toNat := by
  rw [be16At, byteAt_of_get? ha, byteAt_of_get? hb]

section
variable {s : State} {m : Memory} {h : Byte} {c : Half} (hf : EncodedFrame s m h c)
include hf

theorem EncodedFrame.be16At_length (hlen : 12 + rangeLength s ≤ 8192) : be16At m 2 = 12 + rangeLength s := by
  rw [be16At_of_get? hf.lengthHi hf.lengthLo, BitVec.toNat_ofNat, BitVec.toNat_ofNat]
  omega

theorem EncodedFrame.be16At_sender : be16At m 4 = s.hdrAddr.toNat / 65536 := by
  have haddr := s.hdrAddr.isLt
  rw [be16At_of_get? hf.senderHi hf.senderLo, BitVec.toNat_ofNat, BitVec.toNat_ofNat]
  omega

theorem EncodedFrame.be16At_receiver : be16At m 6 = s.hdrAddr.toNat % 65536 := by
  rw [be16At_of_get? hf.receiverHi hf.receiverLo, BitVec.toNat_ofNat, BitVec.toNat_ofNat]
  omega

theorem EncodedFrame.be16At_op : be16At m 8 = s.hdrOp.toNat / 256 * 256 + h.toNat := by
  have hop := s.hdrOp.isLt
  rw [be16At_of_get? hf.opcode hf.header, BitVec.toNat_ofNat]
  omega

theorem EncodedFrame.be16At_crc : be16At m (10 + rangeLength s) = c.toNat := by
  have hc := c.isLt
  have hlo := hf.crcLo
  rw [show 11 + rangeLength s = 10 + rangeLength s + 1 by omega] at hlo
  rw [be16At_of_get? hf.crcHi hlo, BitVec.toNat_ofNat, BitVec.toNat_ofNat]
  omega

/-- E and SUB of the final header byte, whether D is set or not (30_encoding.md R63). -/
theorem EncodedFrame.header_fields (hp : rangePairs s ≤ 7) :
    h.toNat / 16 % 8 = rangePairs s ∧ h.toNat % 16 = s.hdrOp.toNat % 16 := by
  have hplain := plainHeader_toNat hp
  rw [hf.disambiguated]
  split
  · rw [or_dFlag_toNat (by omega)]; omega
  · omega

/-! ## An encoded frame in a window -/

/-- The first four bytes of a frame at `p`, with no pair before it and room for it in the window, make it the candidate. -/
theorem EncodedFrame.candidate {u : State} {p : Nat} (hlen : 12 + rangeLength s ≤ 8192) (hr : RangeReadable u)
    (hstart : u.start.toNat ≤ p) (hroom : p + (12 + rangeLength s) ≤ u.ilen.toNat)
    (hfirst : ∀ i, u.start.toNat ≤ i → i < p → pairAt u.ibuf i = false)
    (hhead : ∀ k, k < 4 → Memory.get? u.ibuf (p + k) = Memory.get? m k) : Candidate u p (12 + rangeLength s) where
  readable := hr
  first :=
    { fromStart := hstart
      inWindow := by omega
      pair := by
        have h0 : Memory.get? u.ibuf p = some 0xA5#8 := (hhead 0 (by decide)).trans hf.sync0
        rw [pairAt, h0, (hhead 1 (by decide)).trans hf.sync1]; rfl
      least := hfirst }
  envelope := by omega
  declared := by
    rw [← hf.be16At_length hlen, be16At, be16At, byteAt, byteAt, byteAt, byteAt, hhead 2 (by decide)]
    rw [show p + 2 + 1 = p + 3 from rfl, hhead 3 (by decide)]

end

/-- The bytes ENCODE left in OBUF from 0 on stand whole in the input buffer of `u` from `p` on. -/
def FrameStandsAt (s : State) (m : Memory) (u : State) (p : Nat) : Prop :=
  ∀ k, k < 12 + rangeLength s → Memory.get? u.ibuf (p + k) = Memory.get? m k

section
variable {s u : State} {m : Memory} {h : Byte} {c : Half} {p : Nat}

theorem FrameStandsAt.be16At_eq (hat : FrameStandsAt s m u p) {k : Nat} (hk : k + 1 < 12 + rangeLength s) :
    be16At u.ibuf (p + k) = be16At m k := by
  rw [be16At, be16At, byteAt, byteAt, byteAt, byteAt, Nat.add_assoc, hat k (by omega), hat (k + 1) hk]

theorem FrameStandsAt.bytesAt_eq (hat : FrameStandsAt s m u p) {n : Nat} (hn : n ≤ 12 + rangeLength s) :
    bytesAt u.ibuf p (p + n) = bytesAt m 0 n := by
  rw [← Nat.zero_add n, bytesAt_congr (lo := p) (lo' := 0) (m' := m), Nat.zero_add]
  exact fun k hk => by rw [byteAt, byteAt, hat k (by omega), Nat.zero_add]

/-- The payload of the frame is the range ENCODE read. -/
theorem FrameStandsAt.get?_payload (hat : FrameStandsAt s m u p) (hf : EncodedFrame s m h c) {k : Nat}
    (hk : k < rangeLength s) : Memory.get? u.ibuf (p + 10 + k) = Memory.get? s.ibuf (s.start.toNat + k) := by
  rw [Nat.add_assoc, hat _ (by omega), hf.payload k hk]

/-- The pairs of the payload are the pairs of the range ENCODE read. -/
theorem FrameStandsAt.payloadPairs_eq (hat : FrameStandsAt s m u p) (hf : EncodedFrame s m h c) (hs : RangeReadable s)
    (hroom : p + (12 + rangeLength s) ≤ u.ilen.toNat) : payloadPairs u p (12 + rangeLength s) = rangePairs s := by
  have hrange : s.start.toNat + rangeLength s = s.ilen.toNat := Nat.add_sub_cancel' hs.1.1
  have hbytes : bytesAt u.ibuf (p + 10) (p + 10 + rangeLength s) = rangeBytes s := by
    rw [rangeBytes, ← hrange]
    exact bytesAt_congr fun k hk => by rw [byteAt, byteAt, hat.get?_payload hf hk]
  have hwritten : ∀ i, p + 10 ≤ i → i < p + 10 + rangeLength s → Memory.written u.ibuf i := fun i hlo hhi => by
    have hget := hat.get?_payload hf (k := i - (p + 10)) (by omega)
    rw [Nat.add_sub_cancel' hlo] at hget
    rw [Memory.written, hget]
    exact hs.2 _ (by omega) (by omega)
  rw [payloadPairs, show min (p + (12 + rangeLength s) - 2) u.ilen.toNat = p + 10 + rangeLength s by omega,
    ← esc_bytesAt hwritten, hbytes, esc_bytesAt hs.2, rangePairs]

/-- The pair count of the frame is the E of its header byte. -/
theorem FrameStandsAt.pairs_agree (hat : FrameStandsAt s m u p) (hf : EncodedFrame s m h c) (hs : EncodeFits s)
    (hroom : p + (12 + rangeLength s) ≤ u.ilen.toNat) : payloadPairs u p (12 + rangeLength s) = escAt u.ibuf p := by
  obtain ⟨hesc, -⟩ := hf.header_fields hs.pairsFit
  rw [hat.payloadPairs_eq hf hs.readable hroom, escAt, byteAt_of_get? ((hat 9 (by omega)).trans hf.header), hesc]

/-- The CRC over the frame is the one in its CRC field. -/
theorem FrameStandsAt.crc_agrees (hat : FrameStandsAt s m u p) (hf : EncodedFrame s m h c) :
    (crc16 0xFFFF#16 (bytesAt u.ibuf p (p + (12 + rangeLength s) - 2))).toNat =
      be16At u.ibuf (p + (12 + rangeLength s) - 2) := by
  rw [show p + (12 + rangeLength s) - 2 = p + (10 + rangeLength s) by omega, hat.be16At_eq (by omega), hf.be16At_crc,
    hat.bytesAt_eq (by omega), ← hf.crcCovers]

end

/-- Settles O33: the frame is the candidate, and its length, pair count and CRC field are those ENCODE wrote, so every
check passes and the accept hands out what ENCODE took in. -/
theorem encodedFrameDecodes : Obligations.EncodedFrameDecodes := by
  intro s hs
  refine ⟨_, execEncode_fits hs, rfl, fun u p hr hstart hroom hfirst (hat : FrameStandsAt s _ u p) => ?_⟩
  have hf := encodeSucceeds_frame hs
  generalize encodeSucceeds s (encodeHeader s (rangeBytes s)) (rangeBytes s) = t at hf hat
  have hlen := hs.frameFits
  have hop := be16At_lt t.obuf 8
  have hilen := u.ilen.isLt
  obtain ⟨-, hsub⟩ := hf.header_fields hs.pairsFit
  have hcand := hf.candidate hlen hr hstart hroom hfirst fun k hk => hat k (by omega)
  obtain ⟨m, hdecode, hm⟩ := decodeAcceptsFrame u p _ hcand (by omega) hlen hroom (hat.pairs_agree hf hs hroom)
    (hat.crc_agrees hf)
  rw [hat.be16At_eq (k := 4) (by omega), hat.be16At_eq (k := 6) (by omega), hat.be16At_eq (k := 8) (by omega),
    hf.be16At_sender, hf.be16At_receiver] at hdecode
  rw [hf.be16At_op] at hop hdecode
  refine ⟨_, hdecode, rfl, hcand.first.toNat_ofNat, ?_, ?_, ?_, ?_, ?_, fun k hk => ?_⟩
  · rw [BitVec.toNat_ofNat, Nat.mod_eq_of_lt (by omega)]
  · rw [Nat.div_add_mod', BitVec.ofNat_toNat, BitVec.setWidth_eq]
  · rw [BitVec.toNat_ofNat]; omega
  · rw [BitVec.toNat_ofNat]; omega
  · rw [BitVec.toNat_ofNat]; omega
  · rw [hm, if_pos (by omega), hat.get?_payload hf hk]

/-! ## One bit inverted -/

/-- An inverted bit changes its byte. -/
theorem xor_bit_ne (b : Byte) {bit : Nat} (h : bit < 8) : b ^^^ (1#8 <<< bit) ≠ b := by
  have hbit : ∀ bit < 8, 1#8 <<< bit ≠ 0#8 := by decide
  exact fun hsame => hbit bit h ((BitVec.xor_right_inj b).1 (hsame.trans BitVec.xor_zero.symm))

/-- Buffers that agree on a range hold the same sequence there. -/
theorem bytesAt_eq_of_agree {m m' : Memory} {lo hi : Nat} (h : ∀ i, lo ≤ i → i < hi → byteAt m i = byteAt m' i) :
    bytesAt m lo hi = bytesAt m' lo hi :=
  List.map_congr_left fun i hi => by
    rw [List.mem_range'_1] at hi
    exact h i hi.1 (by omega)

/-- A range around one of its bytes. -/
theorem bytesAt_split (m : Memory) {lo i hi : Nat} (hlo : lo ≤ i) (hhi : i < hi) :
    bytesAt m lo hi = bytesAt m lo i ++ byteAt m i :: bytesAt m (i + 1) hi := by
  rw [← bytesAt_cons m hhi, bytesAt_append m hlo hhi.le]

/-- With one byte of a body or of its CRC field changed, the field is not the CRC over the body: a change in the body changes
the CRC, one in the field changes the field. -/
theorem crcField_ne_of_changed {m m' : Memory} {n off : Nat} (hoff : off < n + 2) (hne : byteAt m' off ≠ byteAt m off)
    (hsame : ∀ k, k < n + 2 → k ≠ off → byteAt m' k = byteAt m k)
    (hcrc : (crc16 0xFFFF#16 (bytesAt m 0 n)).toNat = be16At m n) :
    (crc16 0xFFFF#16 (bytesAt m' 0 n)).toNat ≠ be16At m' n := by
  intro hcrc'
  by_cases hbody : off < n
  · have hfield : be16At m' n = be16At m n := by
      rw [be16At, be16At, hsame n (by omega) (by omega), hsame (n + 1) (by omega) (by omega)]
    have hbefore : bytesAt m' 0 off = bytesAt m 0 off :=
      bytesAt_eq_of_agree fun i _ hi => hsame i (by omega) (by omega)
    have hbehind : bytesAt m' (off + 1) n = bytesAt m (off + 1) n :=
      bytesAt_eq_of_agree fun i hlo hhi => hsame i (by omega) (by omega)
    rw [hfield, ← hcrc, BitVec.toNat_inj, bytesAt_split m' (Nat.zero_le off) hbody,
      bytesAt_split m (Nat.zero_le off) hbody, hbefore, hbehind] at hcrc'
    exact hne (crc16_injective_byte hcrc')
  · have hwhole : bytesAt m' 0 n = bytesAt m 0 n :=
      bytesAt_eq_of_agree fun i _ hi => hsame i (by omega) (by omega)
    rw [hwhole, hcrc, be16At, be16At] at hcrc'
    obtain rfl | rfl : off = n ∨ off = n + 1 := by omega
    · rw [hsame (off + 1) (by omega) (by omega)] at hcrc'
      exact hne (BitVec.eq_of_toNat_eq (by omega))
    · rw [hsame n (by omega) (by omega)] at hcrc'
      exact hne (BitVec.eq_of_toNat_eq (by omega))

/-- Every byte of a frame ENCODE left in OBUF is written. -/
theorem encodeSucceeds_written (s : State) (h : Byte) {P : List Byte} {j : Nat} (hj : j < 12 + P.length) :
    Memory.written (encodeSucceeds s h P).obuf j := by
  have hclosed : j < (closeFrame (frameBody s.hdrAddr (opcodeField s.hdrOp) h P)).length := by
    rw [closeFrame_length, frameBody_length]; omega
  rw [Memory.written, encodeSucceeds_get?, if_pos hj, List.getElem?_eq_getElem hclosed]
  exact ⟨_, rfl⟩

/-- An ENCODE that reports OK leaves every byte OLEN counts written. -/
theorem execEncode_ok_written {s t : State} (h : exec .encode s = .next t) (hok : t.status = 0x00#8) :
    ∀ k, k < t.olen.toNat → Memory.written t.obuf k := by
  obtain ⟨-, holen, -⟩ := execEncode_ok_frame h hok
  obtain ⟨-, rfl⟩ := execEncode_ok h hok
  exact fun k hk => encodeSucceeds_written s _ (by rw [bytesAt_length]; rw [rangeLength] at holen; omega)

/-- A complete candidate of a legal length whose CRC field is not its CRC is rejected, by its pair count or by its CRC. -/
theorem Candidate.rejected_of_crc {u : State} {p len : Nat} (h : Candidate u p len) (hmin : 12 ≤ len) (hmax : len ≤ 8192)
    (hfits : p + len ≤ u.ilen.toNat)
    (hcrc : (crc16 0xFFFF#16 (bytesAt u.ibuf p (p + len - 2))).toNat ≠ be16At u.ibuf (p + len - 2)) :
    ∃ v, exec .decode u = .next v ∧ v.status ∈ [0x32#8, 0x33#8, 0x34#8] := by
  rw [execDecode_candidate h, if_neg hmin.not_gt, if_neg hmax.not_gt, if_neg hfits.not_gt, if_pos hcrc]
  split_ifs
  · exact ⟨_, rfl, by simp⟩
  · exact ⟨_, rfl, by simp⟩
  · exact ⟨_, rfl, by simp⟩

/-- Settles O34: sync pair and LENGTH stand, so the frame is a complete candidate, and one changed byte spoils its CRC. -/
theorem singleBitErrorRejected : Obligations.SingleBitErrorRejected := by
  intro s t u off bit ht hok hstart hilen hoff hlt hbit hcopy
  obtain ⟨hs, holen, hf⟩ := execEncode_ok_frame ht hok
  have hlen := hs.frameFits
  have hwritten := execEncode_ok_written ht hok
  have hkept : ∀ k, k < t.olen.toNat → k ≠ off → Memory.get? u.ibuf k = Memory.get? t.obuf k := fun k hk hne => by
    rw [hcopy k hk, if_neg hne]
  have hflipped : Memory.get? u.ibuf off = some (byteAt t.obuf off ^^^ (1#8 <<< bit)) := by
    rw [hcopy off hlt, if_pos rfl, get?_eq_byteAt (hwritten off hlt)]; rfl
  have hstart0 : u.start.toNat = 0 := by rw [hstart]; rfl
  have hr : RangeReadable u := by
    refine ⟨⟨by omega, by rw [hilen]; omega⟩, fun k _ hk => ?_⟩
    rw [hilen] at hk
    by_cases hk' : k = off
    · rw [hk']; exact ⟨_, hflipped⟩
    · rw [Memory.written, hkept k hk hk']; exact hwritten k hk
  have hcand : Candidate u 0 (12 + rangeLength s) :=
    hf.candidate hlen hr hstart0.le (by rw [hilen]; omega) (fun i _ hi => absurd hi (Nat.not_lt_zero i)) fun k hk => by
      rw [Nat.zero_add]; exact hkept k (by omega) (by omega)
  refine hcand.rejected_of_crc (by omega) hlen (by rw [hilen]; omega) ?_
  rw [show 0 + (12 + rangeLength s) - 2 = 10 + rangeLength s by omega]
  refine crcField_ne_of_changed (m := t.obuf) (off := off) (by omega) ?_ (fun k hk hne => ?_) ?_
  · rw [byteAt_of_get? hflipped]
    exact xor_bit_ne _ hbit
  · rw [byteAt, byteAt, hkept k (by omega) hne]
  · rw [← hf.crcCovers, hf.be16At_crc]

end Sys2Proof.Machine
end

section
/-! PROOFS. Readable ranges inside readable ranges: CRC_BUF in two parts (40_crc.md R82), the header an accepted DECODE hands
out (41_escape_codec.md R112; 70_reset_and_hazards.md R174), and the host's scan loop (41_escape_codec.md R122). -/

namespace Sys2Proof.Machine

/-- A part of a readable range is readable. -/
theorem RangeReadable.part {s u : State} (hr : RangeReadable s) (hibuf : u.ibuf = s.ibuf)
    (hlo : s.start.toNat ≤ u.start.toNat) (hle : u.start.toNat ≤ u.ilen.toNat) (hhi : u.ilen.toNat ≤ s.ilen.toNat) :
    RangeReadable u := by
  obtain ⟨⟨-, hlen⟩, hw⟩ := hr
  refine ⟨⟨hle, hhi.trans hlen⟩, fun i h1 h2 => ?_⟩
  rw [hibuf]
  exact hw i (hlo.trans h1) (h2.trans_le hhi)

/-! ## CRC_BUF in two parts -/

/-- CRC_BUF over a readable range folds its bytes from CRC (R86). -/
theorem execCrcBuf_crc {s t : State} (hr : RangeReadable s) (h : exec .crcBuf s = .next t) :
    t.crc = crc16 s.crc (rangeBytes s) := by
  rw [execCrcBuf_readable hr] at h
  cases h; rfl

/-- Settles O18: the fold over the first part is the seed of the fold over the second. -/
theorem crcBufSplits : Obligations.CrcBufSplits := by
  intro s t u j hr hlo hhi ht hu
  have hibuf : t.ibuf = s.ibuf := by rw [execCrcBuf_frame ht]
  have hfirst : t.crc = crc16 s.crc (bytesAt s.ibuf s.start.toNat j.toNat) :=
    execCrcBuf_crc (hr.part (u := { s with ilen := j }) rfl le_rfl hlo hhi) ht
  have hsecond : u.crc = crc16 t.crc (bytesAt t.ibuf j.toNat s.ilen.toNat) :=
    execCrcBuf_crc (hr.part (u := { t with start := j, ilen := s.ilen }) hibuf hlo hhi le_rfl) hu
  refine ⟨_, execCrcBuf_readable hr, ?_⟩
  rw [hsecond, hfirst, hibuf, ← crc16_append, bytesAt_append _ hlo hhi]

/-! ## The header of a candidate -/

/-- A candidate DECODE accepts declares a legal length. -/
theorem Candidate.length_min_of_takes {s : State} {p len : Nat} (h : Candidate s p len)
    (ht : exec .decode s = .next (decodeTakes s p len)) : 12 ≤ len := by
  by_contra hshort
  rw [(decodeChecksLength s p len h).1 (by omega)] at ht
  have hstatus : 0x30#8 = 0x00#8 := congrArg State.status (Host.Outcome.next.inj ht)
  cases hstatus

/-- An accept hands the header byte out in HDR_OP[7:0] (R117). -/
theorem Candidate.decodeTakes_hdrOp_low {s : State} {p len : Nat} (h : Candidate s p len) :
    (decodeTakes s p len).hdrOp.toNat % 256 = (byteAt s.ibuf (p + 9)).toNat := by
  have henv := h.envelope
  have hlow := (byteAt s.ibuf (p + 9)).isLt
  have hop : (decodeTakes s p len).hdrOp = be16 (candByte (candidateBytes s p) 8) (candHeader (candidateBytes s p)) := rfl
  rw [hop, be16_toNat, candHeader, candByte_bytesAt (k := 9) (by omega)]
  omega

/-- Settles O25: without the envelope the candidate is incomplete; with it every check leaves the declared length in FLEN. -/
theorem decodeReadsHeaderInsideWindow : Obligations.DecodeReadsHeaderInsideWindow := by
  refine fun s p hr hp => ⟨execDecode_short hr hp, fun henv => ?_⟩
  have hcand : Candidate s p (be16At s.ibuf (p + 2)) := ⟨hr, hp, henv, rfl⟩
  rw [execDecode_candidate hcand]
  split_ifs
  case neg => exact ⟨_, rfl, rfl, fun _ => hcand.decodeTakes_hdrOp_low⟩
  all_goals exact ⟨_, rfl, rfl, nofun⟩

/-- A DECODE that reports OK accepted a complete candidate of a legal length. -/
theorem execDecode_ok {s t : State} (ht : exec .decode s = .next t) (hok : t.status = 0x00#8) :
    ∃ p len, Candidate s p len ∧ 12 ≤ len ∧ p + len ≤ s.ilen.toNat ∧ t = decodeTakes s p len := by
  rcases withRange_next ht with ⟨-, rfl⟩ | ⟨hr, -⟩
  · cases hok
  have hreject : ∀ c ∈ rejectionCodes, c ≠ 0x00#8 := by decide
  rcases execDecode_ends hr ht with rfl | ⟨p, len, -, rfl | ⟨c, hc, rfl⟩ | ⟨h, hfits, rfl⟩⟩
  · cases hok
  · cases hok
  · exact absurd hok (hreject c hc)
  · exact ⟨p, len, h, h.length_min_of_takes ht, hfits, rfl⟩

/-- DECODE leaves the input range alone (20_memory.md R49). -/
theorem execDecode_keeps_range {s t : State} (ht : exec .decode s = .next t) :
    t.ibuf = s.ibuf ∧ t.start = s.start ∧ t.ilen = s.ilen := by
  rw [(execDecode_writeSet ht).1]
  exact ⟨rfl, rfl, rfl⟩

/-- Settles O37: the accepted header byte is HDR_OP[7:0], so its preset bits are not 0; the range is still readable. -/
theorem encodeAfterAcceptMeetsPresetBits : Obligations.EncodeAfterAcceptMeetsPresetBits := by
  intro s t ht hok hheader
  obtain ⟨hibuf, hstart, hilen⟩ := execDecode_keeps_range ht
  obtain ⟨p, len, h, -, -, rfl⟩ := execDecode_ok ht hok
  have hlow := h.decodeTakes_hdrOp_low
  rw [decodeTakes_fpos, h.first.toNat_ofNat] at hheader
  have hpreset : (decodeTakes s p len).hdrOp.toNat / 16 % 16 ≠ 0 := by omega
  have hr : RangeReadable (decodeTakes s p len) := h.readable.part hibuf (by rw [hstart])
    (by rw [hstart, hilen]; exact h.readable.1.1) (by rw [hilen])
  rw [execEncode_readable hr, if_pos hpreset]
  rfl

/-! ## The scan -/

/-- NEXT after a scan without a pair stays in the window. -/
theorem noPairNext_bounds {s : State} (hv : RangeValid s) : s.start.toNat ≤ noPairNext s ∧ noPairNext s ≤ s.ilen.toNat := by
  have hle := hv.1
  rw [noPairNext]
  split_ifs <;> omega

/-- Settles O35: one case for each way a DECODE over a readable window ends. -/
theorem decodeMovesScanForward : Obligations.DecodeMovesScanForward := by
  intro s t hr ht
  rcases execDecode_ends hr ht with rfl | ⟨p, len, hp, rfl | ⟨c, hc, rfl⟩ | ⟨h, hfits, rfl⟩⟩
  · obtain ⟨hlo, hhi⟩ := noPairNext_bounds hr.1
    have hnext : (decodeEnds s 0x20#8 (noPairNext s) (noPairNext s) 0).next.toNat = noPairNext s := noPairNext_toNat s
    exact ⟨by omega, by omega, le_rfl, fun _ => .inl rfl⟩
  · have hlo := hp.fromStart
    have hin := hp.inWindow
    have hnext : (decodeEnds s 0x21#8 p p len).next.toNat = p := hp.toNat_ofNat
    exact ⟨by omega, by omega, le_rfl, fun _ => .inr rfl⟩
  · have hlo := hp.fromStart
    have hin := hp.inWindow
    have hfpos : (decodeEnds s c p (p + 1) len).fpos.toNat = p := hp.toNat_ofNat
    have hnext : (decodeEnds s c p (p + 1) len).next.toNat = p + 1 :=
      hp.succ_toNat.trans (congrArg (· + 1) hp.toNat_ofNat)
    exact ⟨by omega, by omega, by omega, fun hstay => by rw [hstay] at hnext; omega⟩
  · have hlo := hp.fromStart
    have hmin := h.length_min_of_takes ht
    have hnext := h.decodeTakes_next_toNat hfits
    rw [decodeTakes_fpos, decodeTakes_flen, hp.toNat_ofNat, BitVec.toNat_ofNat, Nat.mod_eq_of_lt h.len_lt] at hnext
    have hfpos : (decodeTakes s p len).fpos.toNat = p := hp.toNat_ofNat
    exact ⟨by omega, by omega, by omega, fun hstay => by rw [hstay] at hnext; omega⟩

/-- The scan loop stops within as many commands as the window has bytes, and one (R122). -/
theorem scanLoop_stops {s : State} (hr : RangeReadable s) {n : Nat} (hn : s.ilen.toNat - s.start.toNat < n) :
    ∃ t, scanLoop n s = some t ∧ (t.status = 0x20#8 ∨ t.status = 0x21#8) := by
  induction n generalizing s with
  | zero => omega
  | succ n ih =>
    obtain ⟨t, ht⟩ := exec_answers_of_readable (i := .decode) hr
    obtain ⟨hlo, hhi, -, hstay⟩ := decodeMovesScanForward s t hr ht
    obtain ⟨hibuf, -, hilen⟩ := execDecode_keeps_range ht
    by_cases hstop : t.status = 0x20#8 ∨ t.status = 0x21#8
    · exact ⟨t, by simp only [scanLoop, ht, if_pos hstop], hstop⟩
    · have hmoves : s.start.toNat ≠ t.next.toNat := fun h => hstop (hstay (BitVec.eq_of_toNat_eq h.symm))
      have hnext : RangeReadable { t with start := t.next } := hr.part hibuf hlo (by rw [hilen]; exact hhi) (by rw [hilen])
      simp only [scanLoop, ht, if_neg hstop]
      exact ih hnext (by rw [hilen]; dsimp only; omega)

/-- Settles O36. -/
theorem scanLoopStops : Obligations.ScanLoopStops := fun _ hr => scanLoop_stops hr (Nat.lt_succ_self _)

end Sys2Proof.Machine
end

section
/-! PROOFS. The invariant: it holds after reset, and every command, every transaction and so every step keeps it. -/

namespace Sys2Proof.Machine

/-- Settles O44: the buffers are empty and every index register is 0. -/
theorem resetMeetsInv : Obligations.ResetMeetsInv where
  ibufWf := reset_buffers_wf.1
  obufWf := reset_buffers_wf.2
  statusLegal := by decide
  olenBounded := Nat.zero_le _
  outputWritten := fun i hi => absurd hi (Nat.not_lt_zero i)
  fposLeNext := le_rfl
  nextBounded := Nat.zero_le _

/-- Every code a command may leave is one of the fourteen (60_exceptions.md R141). -/
theorem statusLegal_of_mem_codesOf (i : Instr) : ∀ c ∈ codesOf i, statusLegal c = true := by
  cases i <;> simp only [codesOf] <;> decide

theorem exec_statusLegal {i : Instr} {s t : State} (h : exec i s = .next t) : statusLegal t.status = true :=
  statusLegal_of_mem_codesOf i _ (exec_status_mem_codesOf h)

section
variable {s t : State}

/-- ENCODE keeps the invariant: a failing one leaves OLEN at 0, a successful one counts the bytes of its frame. -/
theorem execEncode_keeps_inv (hs : Inv s) (h : exec .encode s = .next t) : Inv t := by
  have hlegal := exec_statusLegal h
  by_cases hok : t.status = 0x00#8
  · obtain ⟨hfits, holen, -⟩ := execEncode_ok_frame h hok
    have hwritten := execEncode_ok_written h hok
    have hlen := hfits.frameFits
    obtain ⟨-, rfl⟩ := execEncode_ok h hok
    exact
    { ibufWf := hs.ibufWf
      obufWf := Memory.wf_setAll hs.obufWf (by
        rw [closeFrame_length, frameBody_length, bytesAt_length, Config.bufLen]
        rw [rangeLength] at hlen
        omega)
      statusLegal := hlegal
      olenBounded := by rw [holen]; exact hlen
      outputWritten := hwritten
      fposLeNext := hs.fposLeNext
      nextBounded := hs.nextBounded }
  · rcases execEncode_next h with ⟨c, -, ht⟩ | ⟨-, rfl⟩
    · rw [ht] at hlegal ⊢
      exact { hs with
        statusLegal := hlegal
        olenBounded := Nat.zero_le _
        outputWritten := fun i hi => absurd hi (Nat.not_lt_zero i) }
    · exact absurd rfl hok

/-- A DECODE that ends without an accept keeps the invariant when its candidate and NEXT are in order inside the buffer. -/
theorem decodeEnds_keeps_inv (hs : Inv s) {c : Byte} {p nx len : Nat} (hc : statusLegal c = true) (hle : p ≤ nx)
    (hnx : nx ≤ 8192) : Inv (decodeEnds s c p nx len) := by
  have hnext : (decodeEnds s c p nx len).next.toNat = nx := Nat.mod_eq_of_lt (by omega)
  have hfpos : (decodeEnds s c p nx len).fpos.toNat = p := Nat.mod_eq_of_lt (by omega)
  exact { hs with statusLegal := hc, fposLeNext := by rw [hfpos, hnext]; exact hle, nextBounded := hnext.trans_le hnx }

/-- An accepted DECODE keeps the invariant: OLEN counts the bytes of the payload. -/
theorem decodeTakes_keeps_inv (hs : Inv s) {p len : Nat} (h : Candidate s p len) (hmin : 12 ≤ len)
    (hfits : p + len ≤ s.ilen.toNat) : Inv (decodeTakes s p len) := by
  have hilen := h.readable.1.2
  have hstart := h.first.fromStart
  have hnext : (decodeTakes s p len).next.toNat = p + len := by
    rw [h.decodeTakes_next]; exact Nat.mod_eq_of_lt (by omega)
  have holen : (decodeTakes s p len).olen.toNat = len - 12 := by
    rw [decodeTakes_eq h hmin hfits]; exact Nat.mod_eq_of_lt (by omega)
  have hobuf : (decodeTakes s p len).obuf = Memory.setAll s.obuf 0 (bytesAt s.ibuf (p + 10) (p + len - 2)) := by
    rw [decodeTakes_eq h hmin hfits]
  exact
  { ibufWf := hs.ibufWf
    obufWf := by rw [hobuf]; exact Memory.wf_setAll hs.obufWf (by rw [bytesAt_length, Config.bufLen]; omega)
    statusLegal := (by decide : statusLegal 0x00#8 = true)
    olenBounded := by rw [holen, Config.bufLen]; omega
    outputWritten := fun j hj => by
      rw [holen] at hj
      rw [hobuf, Memory.written, get?_setAll_payload h hfits, if_pos hj]
      exact h.readable.2 _ (by omega) (by omega)
    fposLeNext := by rw [decodeTakes_fpos, h.first.toNat_ofNat, hnext]; omega
    nextBounded := by rw [hnext]; exact hfits.trans hilen }

/-- DECODE keeps the invariant. -/
theorem execDecode_keeps_inv (hs : Inv s) (h : exec .decode s = .next t) : Inv t := by
  have hlegal := exec_statusLegal h
  rcases withRange_next h with ⟨-, rfl⟩ | ⟨hr, -⟩
  · exact { hs with statusLegal := hlegal }
  have hilen := hr.1.2
  rcases execDecode_ends hr h with rfl | ⟨p, len, hp, rfl | ⟨c, hc, rfl⟩ | ⟨hcand, hfits, rfl⟩⟩
  · exact decodeEnds_keeps_inv hs hlegal le_rfl ((noPairNext_bounds hr.1).2.trans hilen)
  · exact decodeEnds_keeps_inv hs hlegal le_rfl (by have hin := hp.inWindow; omega)
  · exact decodeEnds_keeps_inv hs hlegal (Nat.le_succ p) (by have hin := hp.inWindow; omega)
  · exact decodeTakes_keeps_inv hs hcand (hcand.length_min_of_takes h) hfits

/-- Every command keeps the invariant. -/
theorem exec_keeps_inv {i : Instr} (hs : Inv s) (h : exec i s = .next t) : Inv t := by
  have hlegal := exec_statusLegal h
  cases i with
  | nop | crcInit _ | crcByte _ | crcTab _ => cases h; exact { hs with statusLegal := hlegal }
  | crcBuf => rw [execCrcBuf_frame h]; exact { hs with statusLegal := hlegal }
  | escCount => rw [execEscCount_frame h]; exact { hs with statusLegal := hlegal }
  | encode => exact execEncode_keeps_inv hs h
  | decode => exact execDecode_keeps_inv hs h

/-- Every word issued as a command keeps the invariant. -/
theorem issue_keeps_inv {w : Word} (hs : Inv s) (h : issue w s = .next t) : Inv t := by
  rcases issue_cases w s with ⟨i, -, hx⟩ | ⟨-, hx⟩ | ⟨-, hx⟩ <;> rw [hx] at h
  · exact exec_keeps_inv hs h
  · cases h; exact { hs with statusLegal := (by decide : statusLegal StatusCode.errIllegal.code = true) }
  · cases h; exact { hs with statusLegal := (by decide : statusLegal StatusCode.errReserved.code = true) }

/-- A host write to a register other than CMD reaches nothing the invariant speaks of. -/
theorem writeReg_keeps_inv (hs : Inv s) {v : RegVal} (hv : v.reg ≠ .cmd) : Inv (s.writeReg v) := by
  rcases s.writeReg_cases hv with hx | ⟨w, -, hx⟩ | ⟨w, -, hx⟩ | ⟨w, -, hx⟩ | ⟨w, -, hx⟩ <;> rw [hx]
  · exact hs
  all_goals exact { hs with }

/-- Every transaction keeps the invariant. -/
theorem transact_keeps_inv {tx : HostTx} (hs : Inv s) (h : transact tx s = .next t) : Inv t := by
  rcases transact_cases h with ⟨w, -, hw⟩ | ⟨v, -, hv, rfl⟩ | ⟨r, -, rfl⟩ | ⟨i, b, m, -, hm, rfl⟩ | ⟨i, b, -, -, rfl⟩ |
    ⟨buf, i, S, -, -, rfl⟩ | ⟨-, rfl⟩
  · exact issue_keeps_inv (s := { s with cmd := w }) { hs with } hw
  · exact writeReg_keeps_inv hs hv
  · exact { hs with }
  · exact { hs with ibufWf := memWrite_wf hs.ibufWf hm }
  · exact hs
  · exact { hs with }
  · exact { resetMeetsInv with }

end

/-- Settles O45: an idle step changes nothing, any other is a transaction. -/
theorem stepKeepsInv : Obligations.StepKeepsInv := by
  intro s t hs h
  rcases step_cases s with ⟨-, hx⟩ | ⟨tx, rest, -, hx⟩ <;> rw [hx] at h
  · cases h; exact hs
  · exact transact_keeps_inv (s := { s with pending := rest }) { hs with } h

end Sys2Proof.Machine
end
